-- ==== Sys2Proof/Word.lean ====
section
/-! DEFINITION. The word types of the block: bytes, register words, 7-bit Values, block offsets
(spec/00_scope.md R9 and section 3: REG_W = 32, ADDR_W = 22, ERR_W = 4). -/

namespace Sys2Proof

/-- An encoded, input or output byte (00_scope.md R9). -/
abbrev Byte := BitVec 8

/-- A register word (REG_W = 32). -/
abbrev Word := BitVec 32

/-- A Value, "a logical unsigned integer in [0, 127]" (00_scope.md, glossary); also a repeat count. -/
abbrev Value := BitVec 7

/-- A block-local offset (ADDR_W = 22, 20_memory.md R50): it cannot name an offset >= 2^22. -/
abbrev Offset := BitVec 22

/-- The field STATUS.ERR (ERR_W = 4). -/
abbrev ErrBits := BitVec 4

end Sys2Proof
end

