-- ==== Sys2Proof/Config.lean ====
section
/-! DEFINITION. What one instance of the block fixes, and the free values (the spec's `draw`).

The capacities of an instance are fields of State (the registers IN_CAP_R and OUT_CAP_R), so that every
statement about all states is about all capacities (00_scope.md R8). Here stand only their bound and the
values that `State.reset` shows. -/

namespace Sys2Proof.Config

/-- The largest capacity an instance may have: `1 <= IN_CAP, OUT_CAP <= 2^20` (00_scope.md section 3). -/
def capMax : Nat := 2 ^ 20

/-- IN_CAP of the instance that `State.reset` describes. DESIGN CHOICE (log entry 4): the common start
state of 95_test_vectors.md. -/
def inCap : Nat := 16

/-- OUT_CAP of the instance that `State.reset` describes. DESIGN CHOICE (log entry 4). -/
def outCap : Nat := 16

/-- The free bytes: `draw byte` (20_memory.md R58, 41_compress.md R146). No body: nothing is known of it.
Applied to the draw counter of State, which every draw advances (log entry 3). -/
opaque drawByte : Nat → Byte

/-- The free choice between two outcomes: `draw {0, 2}` of 41_compress.md R146 (log entry 3). -/
opaque drawBool : Nat → Bool

/-- The free number from which `draw {0 .. lim}` of 41_compress.md R146 is taken (log entry 3). -/
opaque drawNat : Nat → Nat

end Sys2Proof.Config
end

