-- ==== Sys2Proof/Syntax.lean ====
section
/-! DEFINITION. The instructions: one constructor per row of spec/opcode_table.json. -/

namespace Sys2Proof

/-- The rows of the opcode table. The first three are the words a host writes to CMD (format CMD32,
30_encoding.md R80, R81); the last three are the bytes of the DECOMPRESS input stream (format STREAM8,
30_encoding.md R89). -/
inductive Instr where
  /-- COMPRESS, command word 0x00000001 (41_compress.md R140). -/
  | compress
  /-- DECOMPRESS, command word 0x00000002 (42_decompress.md R170). -/
  | decompress
  /-- ILLEGAL_CMD, any other command word `w` (60_exceptions.md R204). -/
  | illegalCmd (w : Word)
  /-- MARKER, `1ccccccc` in decoder state Idle: repeat count `c` (42_decompress.md R172). -/
  | marker (c : Value)
  /-- LITERAL, `0vvvvvvv` in decoder state Idle: the Value `v` (42_decompress.md R173). -/
  | literal (v : Value)
  /-- REPEAT_VALUE, `xvvvvvvv` in decoder state PendingValue: the Value `v`; `x` is stripped
  (42_decompress.md R174). -/
  | repeatValue (x : BitVec 1) (v : Value)
  deriving DecidableEq, Repr

end Sys2Proof
end

