-- ==== Sys2Proof/WellFormed.lean ====
section
/-! DEFINITION. Which terms of Instr are instructions. Field widths are in the types; the one check left is
that ILLEGAL_CMD is not one of the two legal command words (30_encoding.md R81). -/

namespace Sys2Proof

/-- `i` is an instruction of the table: an ILLEGAL_CMD word is none of the legal ones, since its row
"matches every CMD32 word that no other CMD32 row matches". -/
def Instr.wellFormed : Instr → Bool
  | .compress => true
  | .decompress => true
  | .illegalCmd w => w != 0x00000001#32 && w != 0x00000002#32
  | .marker _ => true
  | .literal _ => true
  | .repeatValue _ _ => true

end Sys2Proof
end

