-- ==== Sys2Proof/Decode.lean ====
section
/-! DEFINITION. Decoding of command words and stream bytes, and the encoder (spec/30_encoding.md).

A unit of code is a command word (CMD32) or a stream byte (STREAM8). What a stream byte stands for depends on
the decoder state left by the byte before it (R89), so decoding takes a context. -/

namespace Sys2Proof

/-- The decoder's state `DState` (10_state.md R37): a fact about the preceding byte. -/
inductive DState where
  /-- the preceding byte, if any, completed a group -/
  | idle
  /-- the preceding byte was a marker whose repeat count is `c` -/
  | pendingValue (c : Value)
  deriving DecidableEq, Repr

/-- One unit of code: a word written to CMD, or a byte of the encoded stream. -/
inductive CodeUnit where
  | cmd32 (w : Word)
  | stream8 (b : Byte)
  deriving DecidableEq, Repr

/-- Where a unit of code stands: a 4-byte aligned write to CMD, or the input stream of a DECOMPRESS whose
decoder is in state `d`. -/
inductive Context where
  | cmdWrite
  | stream (d : DState)
  deriving DecidableEq, Repr

/-- Why bits are no unit of code in their context. -/
inductive Reject where
  /-- the spec has instructions of 32 bits (R80) and of 8 bits (R83), and of no other length -/
  | noSuchLength (nbits : Nat)
  /-- the number does not fit the length -/
  | tooWide (nbits : Nat)
  /-- a byte where a command word is due: "a 1-byte or 2-byte write to CMD does not start a command"
  (20_memory.md R53) -/
  | byteAsCommand
  /-- a command word where a stream byte is due -/
  | wordInStream
  deriving DecidableEq, Repr

/-- Bit 7 of a byte, "the sole structural signal" (R82). -/
def highBit (b : Byte) : Bool := b.getLsbD 7

/-- Bits 6:0 of a byte: `b & 0x7F` as a Value (R85), and a marker's repeat count (R84). -/
def low7 (b : Byte) : Value := b.extractLsb' 0 7

/-- Bit 7 of a byte as a field. -/
def bit7 (b : Byte) : BitVec 1 := b.extractLsb' 7 1

/-- The command word's opcode map (R81): it decodes the whole word, and it is total. -/
def decodeCmd (w : Word) : Instr :=
  if w = 0x00000001#32 then .compress
  else if w = 0x00000002#32 then .decompress
  else .illegalCmd w

/-- The token table (R89): what the byte `b` is in decoder state `d`. -/
def decodeToken (d : DState) (b : Byte) : Instr :=
  match d with
  | .idle => if highBit b then .marker (low7 b) else .literal (low7 b)
  | .pendingValue _ => .repeatValue (bit7 b) (low7 b)

/-- The instruction a unit of code is in its context, or why it is none. -/
def decode (ctx : Context) (u : CodeUnit) : Except Reject Instr :=
  match ctx, u with
  | .cmdWrite, .cmd32 w => .ok (decodeCmd w)
  | .stream d, .stream8 b => .ok (decodeToken d b)
  | .cmdWrite, .stream8 _ => .error .byteAsCommand
  | .stream _, .cmd32 _ => .error .wordInStream

/-- The unit of code that `nbits` bits with value `w` are. -/
def unitOfBits (nbits w : Nat) : Except Reject CodeUnit :=
  if nbits = 32 then
    if w < 2 ^ 32 then .ok (.cmd32 (BitVec.ofNat 32 w)) else .error (.tooWide 32)
  else if nbits = 8 then
    if w < 2 ^ 8 then .ok (.stream8 (BitVec.ofNat 8 w)) else .error (.tooWide 8)
  else .error (.noSuchLength nbits)

/-- The context in which a unit of code is met first: every DECOMPRESS starts in Idle (42_decompress.md R171). -/
def CodeUnit.firstContext : CodeUnit → Context
  | .cmd32 _ => .cmdWrite
  | .stream8 _ => .stream .idle

/-- The instruction of `nbits` bits with value `w`; a byte is read as the first byte of a stream. DESIGN CHOICE
(log entry 8): the table's row REPEAT_VALUE needs a context that bits alone do not give. -/
def decodeTableWord (nbits w : Nat) : Option Instr :=
  match unitOfBits nbits w with
  | .error _ => none
  | .ok u =>
    match decode u.firstContext u with
    | .ok i => some i
    | .error _ => none

/-! ## The encoder -/

/-- The unit of code of an instruction (R81; R84, R85, R89 and the "encoding" column of the opcode table). -/
def encode : Instr → CodeUnit
  | .compress => .cmd32 0x00000001#32
  | .decompress => .cmd32 0x00000002#32
  | .illegalCmd w => .cmd32 w
  | .marker c => .stream8 (1#1 ++ c)
  | .literal v => .stream8 (0#1 ++ v)
  | .repeatValue x v => .stream8 (x ++ v)

/-- The contexts in which an instruction can stand: the "context" column of the opcode table. -/
def Instr.standsIn : Instr → Context → Bool
  | .compress, .cmdWrite => true
  | .decompress, .cmdWrite => true
  | .illegalCmd _, .cmdWrite => true
  | .marker _, .stream .idle => true
  | .literal _, .stream .idle => true
  | .repeatValue _ _, .stream (.pendingValue _) => true
  | _, _ => false

end Sys2Proof
end

