-- ==== Sys2Proof/Machine/Codec.lean ====
section
/-! DEFINITION. The encoding rule and the decoding rule as functions on byte sequences, in the spec's own forms
(spec/41_compress.md R141 to R147, spec/42_decompress.md R171 to R178). The engine's passes (Passes.lean) are written
separately, over the working state; that they compute these functions is for the statements. -/

namespace Sys2Proof.Machine

/-- The longest run one marker encodes (00_scope.md R7). -/
abbrev maxChunk : Nat := 127

/-- Valid COMPRESS input: every byte is `< 128` (00_scope.md, glossary). -/
def validInput (src : List Byte) : Bool := src.all fun b => !highBit b

/-- The run partition (41_compress.md R141): maximal runs, as (value, length). -/
def runs (src : List Byte) : List (Byte × Nat) :=
  match src with
  | [] => []
  | b :: rest =>
    match runs rest with
    | [] => [(b, 1)]
    | (v, l) :: more => if v = b then (v, l + 1) :: more else (b, 1) :: (v, l) :: more

/-- The chunks of a run (41_compress.md R142): as many of 127 as fit, then the remainder if it is not 0. -/
def chunks (v : Byte) (l : Nat) : List (Byte × Nat) :=
  List.replicate (l / maxChunk) (v, maxChunk) ++ if l % maxChunk > 0 then [(v, l % maxChunk)] else []

/-- The marker of a chunk of length `c`: `(c + 128) mod 256` (30_encoding.md R84). -/
def markerByte (c : Nat) : Byte := BitVec.ofNat 8 ((c + 128) % 256)

/-- The bytes a chunk emits (41_compress.md R143). -/
def emit (v : Byte) (c : Nat) : List Byte := if c = 1 then [v] else [markerByte c, v]

/-- `RLE_Encode` (41_compress.md R144): the emissions of the chunks of the runs, in input order. -/
def rleEncode (src : List Byte) : List Byte :=
  (runs src).flatMap fun r => (chunks r.1 r.2).flatMap fun c => emit c.1 c.2

/-- The bytes a run of length `l` costs (41_compress.md R147). -/
def cost (l : Nat) : Nat :=
  2 * (l / maxChunk) + if l % maxChunk = 0 then 0 else if l % maxChunk = 1 then 1 else 2

/-- The Value a byte carries, as an output byte: `b & 0x7F` (30_encoding.md R85). -/
def valueByte (b : Byte) : Byte := (low7 b).setWidth 8

/-- `RLE_Decode` from decoder state `d` (42_decompress.md R176, two-state form); `none` is Malformed (R175). -/
def decodeFrom (d : DState) (src : List Byte) : Option (List Byte) :=
  match src with
  | [] =>
    match d with
    | .idle => some []
    | .pendingValue _ => none
  | b :: rest =>
    match d with
    | .idle =>
      if highBit b then decodeFrom (.pendingValue (low7 b)) rest
      else (decodeFrom .idle rest).map fun out => valueByte b :: out
    | .pendingValue c =>
      (decodeFrom .idle rest).map fun out => List.replicate c.toNat (valueByte b) ++ out

/-- `RLE_Decode` (42_decompress.md R171, R176): every DECOMPRESS starts in Idle. -/
def rleDecode (src : List Byte) : Option (List Byte) := decodeFrom .idle src

/-- The source's two variables (42_decompress.md R176): "pending repeat count" and "marker active", with the output
so far. -/
structure VarState where
  count : Nat
  active : Bool
  out : List Byte
  deriving DecidableEq, Repr

/-- One turn of the two-variable loop of 42_decompress.md R176. -/
def varStep (s : VarState) (b : Byte) : VarState :=
  if !s.active && highBit b then { s with count := (b.toNat - 128) % 256, active := true }
  else { count := 1, active := false, out := s.out ++ List.replicate s.count (b &&& 0x7F#8) }

/-- `RLE_Decode` in the source's two-variable form (42_decompress.md R176). -/
def rleDecodeVars (src : List Byte) : Option (List Byte) :=
  let s := src.foldl varStep { count := 1, active := false, out := [] }
  if s.active then none else some s.out

/-- A group of the encoded stream (30_encoding.md R86). -/
inductive Group where
  | one (b : Byte)
  | two (b0 b1 : Byte)
  deriving DecidableEq, Repr

/-- The groups of a stream; `none` when the last is cut short (30_encoding.md R86). -/
def groups (src : List Byte) : Option (List Group) :=
  match src with
  | [] => some []
  | b :: rest =>
    if highBit b then
      match rest with
      | [] => none
      | b1 :: rest' => (groups rest').map fun gs => .two b b1 :: gs
    else (groups rest).map fun gs => .one b :: gs

/-- The bytes of a group. -/
def Group.bytes : Group → List Byte
  | .one b => [b]
  | .two b0 b1 => [b0, b1]

/-- The Values a group stands for (30_encoding.md R86). -/
def Group.values : Group → List Byte
  | .one b => [valueByte b]
  | .two b0 b1 => List.replicate (low7 b0).toNat (valueByte b1)

end Sys2Proof.Machine
end

