-- ==== Sys2Proof/Machine/HostProgram.lean ====
section
/-! DEFINITION. The host's side of the bus: transactions, host programs and their pseudo-instructions
(spec/30_encoding.md R91 to R93). -/

namespace Sys2Proof.Machine

/-- The size of a host access: 1, 2 or 4 bytes (20_memory.md section 2, 30_encoding.md R92). -/
inductive Size where
  | one
  | two
  | four
  deriving DecidableEq, Repr

/-- The direction of a bus transaction (30_encoding.md R92). -/
inductive Dir where
  | w
  | r
  deriving DecidableEq, Repr

/-- A bus transaction, the 4-tuple `(dir, size, off, data)` of 30_encoding.md R92. -/
structure BusTxn where
  dir : Dir
  size : Size
  off : Offset
  data : Word
  deriving DecidableEq, Repr

/-- The data operand of a write line: a number, or a host variable (30_encoding.md R91). -/
inductive Operand where
  | num (v : Word)
  | var (x : Nat)
  deriving DecidableEq, Repr

/-- A line of a host program (30_encoding.md R91). Variables and labels are numbered, not named. -/
inductive Line where
  /-- `name:` -/
  | label (l : Nat)
  /-- `WR8`, `WR16` or `WR32 off, data` -/
  | wr (n : Size) (off : Offset) (data : Operand)
  /-- `RD8`, `RD16` or `RD32 off -> x` -/
  | rd (n : Size) (off : Offset) (x : Nat)
  /-- `JNZ x, mask, label` -/
  | jnz (x : Nat) (mask : Word) (l : Nat)
  /-- `HALT` -/
  | halt
  deriving DecidableEq, Repr

/-- A pseudo-instruction (30_encoding.md R93). `l` is the fresh label and `x` the host variable `s` of `WAIT`. The
operands `op`, `bi` and `k` stand at the word or byte operand of a write line, so each is a number or a host variable
(R91). -/
inductive Pseudo where
  | wait (l x : Nat)
  | run (op : Operand) (l x : Nat)
  | compress (l x : Nat)
  | decompress (l x : Nat)
  | loadIn (bytes : List Operand)
  | setLim (k : Operand)
  | stat (x : Nat)
  | outLen (x : Nat)
  /-- `READOUT m -> y`: the variables `y[0] .. y[m-1]` are numbered `y .. y + m - 1` -/
  | readOut (m y : Nat)
  deriving DecidableEq, Repr

/-- `WAIT`: poll until STATUS.BUSY = 0. -/
def waitLines (l x : Nat) : List Line :=
  [.label l, .rd .four 0x000004#22 x, .jnz x 0x1#32 l]

/-- `RUN op`. -/
def runLines (op : Operand) (l x : Nat) : List Line :=
  .wr .four 0x000000#22 op :: waitLines l x

/-- The most bytes from IN_BUF's first offset on that the host can name: `2^22 - 0x100000` (20_memory.md R50, R51). -/
abbrev loadMax : Nat := 0x300000

/-- The most bytes from OUT_BUF's first offset on that the host can name: `2^22 - 0x200000` (20_memory.md R50, R51). -/
abbrev readMax : Nat := 0x200000

/-- The byte writes of `LOADIN`, from buffer index `i` on; the indices stay below `loadMax`. -/
def loadBytes (i : Nat) : List Operand → List Line
  | [] => []
  | b :: bs => .wr .one (BitVec.ofNat 22 (0x100000 + i)) b :: loadBytes (i + 1) bs

/-- The byte reads of `READOUT`: `m` of them, from buffer index `i` on, into the variables from `y` on; the indices stay
below `readMax`. -/
def readBytes (i y : Nat) : Nat → List Line
  | 0 => []
  | m + 1 => .rd .one (BitVec.ofNat 22 (0x200000 + i)) y :: readBytes (i + 1) (y + 1) m

/-- The expansion table of 30_encoding.md R93. DESIGN CHOICE (log entry 9): a `LOADIN` or `READOUT` that runs past offset
`2^22 - 1` has no expansion, because the host cannot name such an offset and offsets do not wrap
(20_memory.md R50); R93 gives no line for it. -/
def Pseudo.expand : Pseudo → Option (List Line)
  | .wait l x => some (waitLines l x)
  | .run op l x => some (runLines op l x)
  | .compress l x => some (runLines (.num 0x00000001#32) l x)
  | .decompress l x => some (runLines (.num 0x00000002#32) l x)
  | .loadIn bytes =>
    if bytes.length ≤ loadMax then
      some (loadBytes 0 bytes ++ [.wr .four 0x000008#22 (.num (BitVec.ofNat 32 bytes.length))])
    else none
  | .setLim k => some [.wr .four 0x00000C#22 k]
  | .stat x => some [.rd .four 0x000004#22 x]
  | .outLen x => some [.rd .four 0x000010#22 x]
  | .readOut m y => if m ≤ readMax then some (readBytes 0 y m) else none

end Sys2Proof.Machine
end

