-- ==== Sys2Proof/Machine/State.lean ====
section
/-! DEFINITION. The state of one block instance and of the agents around it (spec/10_state.md R20 to R38),
the reasons a step can stop, and the state after reset. Plain data only. -/

namespace Sys2Proof.Machine

/-- A buffer (IN_BUF or OUT_BUF, 10_state.md R33, R34): pairs of index and byte, indices strictly rising.
An unlisted index holds no value: nothing has written it since reset (70_reset_and_hazards.md R231,
log entry 2). -/
abbrev Memory := List Host.Cell

/-- Why the model stops with a fault. The hardware has no faults (60_exceptions.md); both are the `fault` that
93_implementation_defined.md U6 and 92_eei_decisions.md D26 prescribe to a model, "naming the byte". -/
inductive Fault where
  /-- a command whose input window holds the byte `IN_BUF[i]`, or a host read of it, where nothing has written
  that byte since reset. Raised by COMPRESS, DECOMPRESS, the engine's stream fetch and `memRead`. Safe: the
  hardware goes on with some byte. -/
  | unwrittenInput (i : Nat)
  /-- a host read of `OUT_BUF[i]` while BUSY = 0, where nothing has written that byte since reset. Raised by
  `memRead`. Safe. -/
  | unwrittenOutput (i : Nat)
  deriving DecidableEq, Repr

/-- Why the model gives a step no meaning. -/
inductive Refusal where
  /-- an instruction that has no meaning yet; raised by `exec`'s refused arms only. Safe. -/
  | notModelled (mnemonic : String)
  /-- the engine is asked for a step while `pend = None`: "When `pend = None` the engine has no step"
  (40_commands.md R112). Raised by the three commands and by the engine inside a completion; `step` asks for
  it in no state of a run (log entry 6). Safe. -/
  | noCommand
  /-- a stream token is asked to run where its row's context does not hold: the decoder is not open, or is in
  the other state (30_encoding.md R89). Raised by the three tokens and the ends of the passes; `step` asks
  for it in no state of a run (log entry 6). Safe. -/
  | tokenContext
  /-- a host program uses a host variable that no earlier read line has set, so it is no host program of
  30_encoding.md R91. Raised by the host's move (log entry 9). Safe. -/
  | unsetVariable (x : Nat)
  /-- a host program jumps to a label it does not have (30_encoding.md R91). Raised by the host's move
  (log entry 9). Safe. -/
  | noSuchLabel (l : Nat)
  deriving DecidableEq, Repr

/-- The command latch `Some(op, n, lim)` (10_state.md R35). -/
structure Pend where
  op : Word
  n : Word
  lim : Word
  deriving DecidableEq, Repr

/-- The encoder's working state (10_state.md R36): the read index `i` at which the current chunk begins, the
chunk's value and length (`none` before the first byte), and the output built so far. -/
structure EncoderWork where
  i : Nat
  chunk : Option (Byte × Nat)
  out : List Byte
  deriving DecidableEq, Repr

/-- The decoder's working state (10_state.md R37): its DState, the index of the next byte, and the output built
so far. -/
structure DecoderWork where
  st : DState
  i : Nat
  out : List Byte
  deriving DecidableEq, Repr

/-- The engine's working state: "none exists outside a completion step" (10_state.md section 5). -/
inductive Work where
  | none
  | encoder (w : EncoderWork)
  | decoder (w : DecoderWork)
  deriving DecidableEq, Repr

/-- The three agents (00_scope.md R4). -/
inductive Agent where
  | host
  | engine
  | reset
  deriving DecidableEq, Repr

/-- The host: its program, the line it is at, and its variables by number (30_encoding.md R91). -/
structure HostAgent where
  prog : List Line
  line : Nat
  vars : List (Nat × Word)
  deriving DecidableEq, Repr

/-- The whole state. The block's own state is that of 10_state.md R20, with the working state of R36 and R37;
`host`, `bus`, `sched` and `draws` are the model's own (log entries 1, 3, 9, 10). -/
structure State where
  /-- STATUS.BUSY, bit 0 (R24) -/
  busy : Bool
  /-- STATUS.DONE, bit 1 (R25) -/
  done : Bool
  /-- STATUS.ERR, bits 7:4 (R26) -/
  err : ErrBits
  /-- IN_LEN (R27) -/
  inLen : Word
  /-- OUT_LIMIT (R28) -/
  outLimit : Word
  /-- OUT_LEN (R29) -/
  outLen : Word
  /-- the parameter IN_CAP, readable in IN_CAP_R (R30) -/
  inCap : Nat
  /-- the parameter OUT_CAP, readable in OUT_CAP_R (R31) -/
  outCap : Nat
  /-- IN_BUF (R33) -/
  inBuf : Memory
  /-- OUT_BUF (R34) -/
  outBuf : Memory
  /-- the command latch `pend` (R35) -/
  pend : Option Pend
  /-- the engine's working state (R36, R37) -/
  work : Work
  /-- the host (30_encoding.md R91) -/
  host : HostAgent
  /-- which agents move next, first to last (20_memory.md R65, log entry 1) -/
  sched : List Agent
  /-- the last transaction on the bus (30_encoding.md R92, log entry 10) -/
  bus : Option BusTxn
  /-- how many draws have been made (log entry 3) -/
  draws : Nat
  deriving DecidableEq, Repr

/-- An instance of capacities `inCap` and `outCap` directly after a reset (10_state.md section 5,
70_reset_and_hazards.md R230 to R232), with no host program, no order fixed and nothing on the bus. -/
def State.resetOf (inCap outCap : Nat) : State where
  busy := false
  done := false
  err := 0
  inLen := 0
  outLimit := BitVec.ofNat 32 outCap
  outLen := 0
  inCap := inCap
  outCap := outCap
  inBuf := []
  outBuf := []
  pend := none
  work := .none
  host := { prog := [], line := 0, vars := [] }
  sched := []
  bus := none
  draws := 0

/-- The machine right after reset; the capacities are log entry 4's DESIGN CHOICE. -/
def State.reset : State := State.resetOf Config.inCap Config.outCap

end Sys2Proof.Machine
end

