-- ==== Sys2Proof/Machine/Memory.lean ====
section
/-! DEFINITION. Reading and writing lists of (key, value) pairs in their one canonical form: keys strictly rising.
The buffers IN_BUF and OUT_BUF are such lists, and so are the host's variables. -/

namespace Sys2Proof.Machine

/-- The value at key `a`, if one is listed. -/
def Cells.read {α : Type} (m : List (Nat × α)) (a : Nat) : Option α :=
  match m with
  | [] => none
  | (k, v) :: rest => if k = a then some v else Cells.read rest a

/-- Writes `v` at key `a`, keeping the keys strictly rising. -/
def Cells.write {α : Type} (m : List (Nat × α)) (a : Nat) (v : α) : List (Nat × α) :=
  match m with
  | [] => [(a, v)]
  | (k, u) :: rest =>
    if a < k then (a, v) :: (k, u) :: rest
    else if a = k then (a, v) :: rest
    else (k, u) :: Cells.write rest a v

/-- Writes the listed values at the keys from `a` on. -/
def Cells.writeList {α : Type} (m : List (Nat × α)) (a : Nat) (vs : List α) : List (Nat × α) :=
  match vs with
  | [] => m
  | v :: rest => Cells.writeList (Cells.write m a v) (a + 1) rest

/-- The `n` values at the keys from `a` on, or the first key among them that lists none. -/
def Cells.readRange {α : Type} (m : List (Nat × α)) (a n : Nat) : Except Nat (List α) :=
  match n with
  | 0 => .ok []
  | k + 1 =>
    match Cells.read m a with
    | none => .error a
    | some v =>
      match Cells.readRange m (a + 1) k with
      | .error e => .error e
      | .ok vs => .ok (v :: vs)

/-- Every key is at least `lo`, and the keys rise strictly. -/
def Cells.risingFrom {α : Type} (lo : Nat) (m : List (Nat × α)) : Bool :=
  match m with
  | [] => true
  | (k, _) :: rest => decide (lo ≤ k) && Cells.risingFrom (k + 1) rest

/-- The canonical form of a buffer: indices strictly rising. (No entry equals what an unlisted index reads as,
since that is no value.) -/
def Memory.wf (m : Memory) : Bool := Cells.risingFrom 0 m

/-- Every listed index is below the buffer's capacity (10_state.md R33, R34). -/
def Memory.below (cap : Nat) (m : Memory) : Bool :=
  match m with
  | [] => true
  | (k, _) :: rest => decide (k < cap) && Memory.below cap rest

end Sys2Proof.Machine
end

