-- ==== Sys2Proof/Machine/Flags.lean ====
section
/-! DEFINITION. STATUS: its packing, its result codes, and the two events that write it
(spec/10_state.md R23 to R26, 60_exceptions.md R200). The block has no other flag (10_state.md R39). -/

namespace Sys2Proof.Machine

/-- The result codes of 60_exceptions.md R200. -/
inductive ErrCode where
  | none
  | malformedEncoding
  | bufferTooSmall
  | illegalCommand
  | badLength
  deriving DecidableEq, Repr

/-- The code's number in STATUS.ERR (60_exceptions.md R200). -/
def ErrCode.bits : ErrCode → ErrBits
  | .none => 0
  | .malformedEncoding => 1
  | .bufferTooSmall => 2
  | .illegalCommand => 3
  | .badLength => 4

/-- STATUS as read: `zext_32(ERR[3:0] ++ 0b00 ++ DONE ++ BUSY)` (20_memory.md section 2); the reserved bits
read 0 (10_state.md R23, R32). -/
def State.statusWord (s : State) : Word :=
  (s.err ++ 0#2 ++ BitVec.ofBool s.done ++ BitVec.ofBool s.busy).setWidth 32

/-- STATUS at acceptance (40_commands.md R110). -/
def State.flagsAccept (s : State) : State :=
  { s with busy := true, done := false, err := 0 }

/-- STATUS at completion with result code `c` (40_commands.md R112). -/
def State.flagsComplete (s : State) (c : ErrCode) : State :=
  { s with busy := false, done := true, err := c.bits }

end Sys2Proof.Machine
end

