-- ==== Sys2Proof/Machine/Ops.lean ====
section
/-! DEFINITION. The block's shared operations: host accesses (spec/20_memory.md section 2), acceptance,
completion with the error entry (spec/40_commands.md R110, R112, R114; spec/60_exceptions.md R210), and reset
(spec/70_reset_and_hazards.md R230). -/

namespace Sys2Proof.Machine

/-! ## Acceptance, completion, reset -/

/-- Acceptance of the command word `w` when BUSY = 0 (40_commands.md R110); a CMD write when BUSY = 1 is ignored
(R111). It is also the "return" from an error: it clears ERR and DONE (60_exceptions.md R211). -/
def State.commandWrite (s : State) (w : Word) : State :=
  if s.busy then s
  else
    { s.flagsAccept with
      pend := some { op := w, n := s.inLen, lim := s.outLimit }
      outLen := 0 }

/-- The one update of a completion (40_commands.md R112): STATUS gets the code, OUT_LEN the length, OUT_BUF its new
contents, the latch and the working state are cleared; `draws` is the draw counter afterwards. -/
def State.finish (s : State) (c : ErrCode) (len : Nat) (out : Memory) (draws : Nat) : State :=
  { s.flagsComplete c with
    outLen := BitVec.ofNat 32 len
    outBuf := out
    pend := none
    work := .none
    draws := draws }

/-- The result `r` of a command (40_commands.md R112). -/
inductive Result where
  | ok (out : List Byte)
  | err (c : ErrCode)
  | unspec
  deriving DecidableEq, Repr

/-- The bytes of `n` draws, from draw number `d` on. -/
def drawBytes (d n : Nat) : List Byte := (List.range n).map fun k => Config.drawByte (d + k)

/-- The error entry, shared by every error code (60_exceptions.md R210): BUSY = 0, DONE = 1, the code in ERR,
OUT_LEN = 0 and OUT_BUF unchanged. -/
def State.raiseError (s : State) (c : ErrCode) : State := s.finish c 0 s.outBuf s.draws

/-- The Unspec completion (41_compress.md R146): ERR is drawn from {0, 2}; every byte of `OutBuf[0 .. lim)` is drawn;
OUT_LEN is drawn from {0 .. lim} when ERR = 0, and is 0 otherwise. -/
def State.completeUnspec (s : State) (lim : Nat) : State :=
  let fails := Config.drawBool s.draws
  s.finish (if fails then .bufferTooSmall else .none)
    (if fails then 0 else Config.drawNat (s.draws + 1) % (lim + 1))
    (Cells.writeList s.outBuf 0 (drawBytes (s.draws + 2) lim))
    (s.draws + 2 + lim)

/-- Completion with the result `r` (40_commands.md R112, R114; 41_compress.md R146). -/
def State.complete (s : State) (lim : Nat) (r : Result) : State :=
  match r with
  | .ok out => s.finish .none out.length (Cells.writeList s.outBuf 0 out) s.draws
  | .err c => s.raiseError c
  | .unspec => s.completeUnspec lim

/-- A reset of the block (70_reset_and_hazards.md R230, R231): registers at their reset values, the latch empty, no
buffer byte with a value, a command in flight abandoned. The capacities stay (10_state.md R30, R31); the host, the
order of moves, the bus record and the draw counter are not the block's (log entry 11). -/
def State.resetBlock (s : State) : State :=
  { State.resetOf s.inCap s.outCap with
    host := s.host
    sched := s.sched
    bus := s.bus
    draws := s.draws }

/-! ## The address map -/

/-- The registers (10_state.md section 2). -/
inductive Reg where
  | cmd
  | status
  | inLen
  | outLimit
  | outLen
  | inCapR
  | outCapR
  | reserved
  deriving DecidableEq, Repr

/-- The register at an offset of the register window (10_state.md section 2). -/
def regOf (a : Offset) : Reg :=
  if a = 0x00#22 then .cmd
  else if a = 0x04#22 then .status
  else if a = 0x08#22 then .inLen
  else if a = 0x0C#22 then .outLimit
  else if a = 0x10#22 then .outLen
  else if a = 0x14#22 then .inCapR
  else if a = 0x18#22 then .outCapR
  else .reserved

/-- The first offset of the IN_BUF window (20_memory.md R51). -/
def inBase : Nat := 0x100000

/-- The first offset of the OUT_BUF window (20_memory.md R51). -/
def outBase : Nat := 0x200000

/-- What a host access of a size at an offset reaches. -/
inductive Target where
  | reg (r : Reg)
  | inByte (i : Nat)
  | outByte (i : Nat)
  /-- nothing: reads 0, write ignored -/
  | inert
  deriving DecidableEq, Repr

/-- What the access of size `n` at offset `a` reaches: registers answer 4-byte aligned accesses (20_memory.md R53),
buffers 1-byte accesses (R54), and nothing answers any other access (R52). -/
def State.target (s : State) (a : Offset) (n : Size) : Target :=
  match n with
  | .four => if a.toNat % 4 = 0 ∧ a.toNat ≤ 0x0000FC then .reg (regOf a) else .inert
  | .two => .inert
  | .one =>
    if inBase ≤ a.toNat ∧ a.toNat < inBase + s.inCap then .inByte (a.toNat - inBase)
    else if outBase ≤ a.toNat ∧ a.toNat < outBase + s.outCap then .outByte (a.toNat - outBase)
    else .inert

/-! ## Register accesses -/

/-- `RegRead` (20_memory.md section 2). -/
def State.regRead (s : State) : Reg → Word
  | .cmd => 0
  | .status => s.statusWord
  | .inLen => s.inLen
  | .outLimit => s.outLimit
  | .outLen => s.outLen
  | .inCapR => BitVec.ofNat 32 s.inCap
  | .outCapR => BitVec.ofNat 32 s.outCap
  | .reserved => 0

/-- `RegWrite` (20_memory.md section 2). -/
def State.regWrite (s : State) (r : Reg) (w : Word) : State :=
  match r with
  | .cmd => s.commandWrite w
  | .inLen => if s.busy then s else { s with inLen := w }
  | .outLimit => if s.busy then s else { s with outLimit := w }
  | .status => s
  | .outLen => s
  | .inCapR => s
  | .outCapR => s
  | .reserved => s

/-! ## Host accesses -/

/-- Host read of `IN_BUF[i]` (20_memory.md R56). -/
def State.readIn (s : State) (i : Nat) : Except Fault (Word × State) :=
  match Cells.read s.inBuf i with
  | none => .error (.unwrittenInput i)
  | some b => .ok (b.setWidth 32, s)

/-- Host read of `OUT_BUF[i]` (20_memory.md R58): a draw while BUSY = 1. -/
def State.readOut (s : State) (i : Nat) : Except Fault (Word × State) :=
  if s.busy then .ok ((Config.drawByte s.draws).setWidth 32, { s with draws := s.draws + 1 })
  else
    match Cells.read s.outBuf i with
    | none => .error (.unwrittenOutput i)
    | some b => .ok (b.setWidth 32, s)

/-- `MemRead(a, n)` (20_memory.md section 2): the value, and the state after it, which differs in the draw counter at
most. -/
def State.memRead (s : State) (a : Offset) (n : Size) : Except Fault (Word × State) :=
  match s.target a n with
  | .reg r => .ok (s.regRead r, s)
  | .inByte i => s.readIn i
  | .outByte i => s.readOut i
  | .inert => .ok (0, s)

/-- Host write of `IN_BUF[i]`, ignored while BUSY = 1 (20_memory.md R57). -/
def State.writeIn (s : State) (i : Nat) (b : Byte) : State :=
  if s.busy then s else { s with inBuf := Cells.write s.inBuf i b }

/-- Host write of `OUT_BUF[i]`, ignored while BUSY = 1 (20_memory.md R59). -/
def State.writeOut (s : State) (i : Nat) (b : Byte) : State :=
  if s.busy then s else { s with outBuf := Cells.write s.outBuf i b }

/-- `MemWrite(a, n, v)` (20_memory.md section 2); a 1-byte write stores the low 8 bits of `v`
(30_encoding.md R91). -/
def State.memWrite (s : State) (a : Offset) (n : Size) (v : Word) : State :=
  match s.target a n with
  | .reg r => s.regWrite r v
  | .inByte i => s.writeIn i (v.setWidth 8)
  | .outByte i => s.writeOut i (v.setWidth 8)
  | .inert => s

end Sys2Proof.Machine
end

