-- ==== Sys2Proof/Machine/Operands.lean ====
section
/-! DEFINITION. The operands of a command: the latched lengths and the input window
(spec/40_commands.md R110, R113). A command word has no register, immediate or mode field
(spec/30_encoding.md R80). -/

namespace Sys2Proof.Machine

/-- The length check of 40_commands.md R113: `n <= IN_CAP` and `lim <= OUT_CAP`. -/
def State.lengthsOk (s : State) (p : Pend) : Bool :=
  decide (p.n.toNat ≤ s.inCap) && decide (p.lim.toNat ≤ s.outCap)

/-- The part of `Execute` (40_commands.md R113) that the two legal commands share: with no latched command there is no
step (R112); an over-large length completes with BadLength and reads nothing; then the window `InBuf[0 .. n)` is
read, and a byte of it that holds no value is a fault of the model (93_implementation_defined.md U6). -/
def withInput (s : State) (k : Pend → List Byte → Host.Outcome State Fault Refusal) :
    Host.Outcome State Fault Refusal :=
  match s.pend with
  | none => .refused .noCommand
  | some p =>
    if s.lengthsOk p then
      match Cells.readRange s.inBuf 0 p.n.toNat with
      | .error i => .fault (.unwrittenInput i)
      | .ok src => k p src
    else .next (s.raiseError .badLength)

end Sys2Proof.Machine
end

