-- ==== Sys2Proof/Machine/Stream.lean ====
section
/-! DEFINITION. The stream tokens MARKER, LITERAL and REPEAT_VALUE: the decoder's transitions
(spec/42_decompress.md R172 to R174), on the decoder's working state (spec/10_state.md R37). -/

namespace Sys2Proof.Machine

/-- Runs `k` on the decoder's working state; where no decoder is open, no stream token stands. -/
def withDecoder (s : State) (k : DecoderWork → Host.Outcome State Fault Refusal) :
    Host.Outcome State Fault Refusal :=
  match s.work with
  | .decoder w => k w
  | .none => .refused .tokenContext
  | .encoder _ => .refused .tokenContext

/-- Replaces the engine's working state. -/
def State.setWork (s : State) (w : Work) : State := { s with work := w }

/-- MARKER `c` (42_decompress.md R172): in Idle, goes to PendingValue(c) and emits nothing. -/
def execMarker (c : Value) (s : State) : Host.Outcome State Fault Refusal :=
  withDecoder s fun w =>
    match w.st with
    | .idle => .next (s.setWork (.decoder { st := .pendingValue c, i := w.i + 1, out := w.out }))
    | .pendingValue _ => .refused .tokenContext

/-- LITERAL `v` (42_decompress.md R173): in Idle, emits `v` once and stays in Idle. -/
def execLiteral (v : Value) (s : State) : Host.Outcome State Fault Refusal :=
  withDecoder s fun w =>
    match w.st with
    | .idle => .next (s.setWork (.decoder { st := .idle, i := w.i + 1, out := w.out ++ [v.setWidth 8] }))
    | .pendingValue _ => .refused .tokenContext

/-- REPEAT_VALUE `x`, `v` (42_decompress.md R174): in PendingValue(c), emits `v` `c` times and goes to Idle; bit 7 of
the byte, `x`, is stripped. -/
def execRepeatValue (_x : BitVec 1) (v : Value) (s : State) : Host.Outcome State Fault Refusal :=
  withDecoder s fun w =>
    match w.st with
    | .idle => .refused .tokenContext
    | .pendingValue c =>
      .next (s.setWork (.decoder
        { st := .idle, i := w.i + 1, out := w.out ++ List.replicate c.toNat (v.setWidth 8) }))

/-- Runs the token that the byte `b` is in the decoder's present state (30_encoding.md R89). -/
def decodeByte (b : Byte) (s : State) : Host.Outcome State Fault Refusal :=
  withDecoder s fun w =>
    match w.st with
    | .idle => if highBit b then execMarker (low7 b) s else execLiteral (low7 b) s
    | .pendingValue _ => execRepeatValue (bit7 b) (low7 b) s

end Sys2Proof.Machine
end

