-- ==== Sys2Proof/Machine/Passes.lean ====
section
/-! DEFINITION. The encoder's and the decoder's single left-to-right passes over the input window, on the engine's
working state (spec/41_compress.md R144, spec/42_decompress.md R171 to R176, spec/10_state.md R36, R37). -/

namespace Sys2Proof.Machine

/-! ## The encoder -/

/-- The encoder's working state at the start of a COMPRESS (10_state.md R36). -/
def EncoderWork.start : EncoderWork := { i := 0, chunk := none, out := [] }

/-- The index of the next byte the encoder looks at: `i + L` (41_compress.md R144). -/
def EncoderWork.next (w : EncoderWork) : Nat :=
  match w.chunk with
  | none => w.i
  | some (_, l) => w.i + l

/-- The pass looks at the byte `b = src[i + L]`: it lengthens the chunk when `b` equals its value and `L < 127`;
otherwise the chunk is emitted and `b` begins a new one (41_compress.md R144). -/
def EncoderWork.push (w : EncoderWork) (b : Byte) : EncoderWork :=
  match w.chunk with
  | none => { w with chunk := some (b, 1) }
  | some (v, l) =>
    if b = v ∧ l < maxChunk then { w with chunk := some (v, l + 1) }
    else { i := w.i + l, chunk := some (b, 1), out := w.out ++ emit v l }

/-- The output when the input ends: the last chunk is emitted (41_compress.md R144). -/
def EncoderWork.result (w : EncoderWork) : List Byte :=
  match w.chunk with
  | none => w.out
  | some (v, l) => w.out ++ emit v l

/-- The encoder looks at one byte. -/
def encodeByte (b : Byte) (s : State) : Host.Outcome State Fault Refusal :=
  match s.work with
  | .encoder w => .next (s.setWork (.encoder (w.push b)))
  | .none => .refused .tokenContext
  | .decoder _ => .refused .tokenContext

/-- The encoder looks at the listed bytes in order. -/
def encodeBytes (bs : List Byte) (s : State) : Host.Outcome State Fault Refusal :=
  match bs with
  | [] => .next s
  | b :: rest =>
    match encodeByte b s with
    | .next t => encodeBytes rest t
    | .fault f => .fault f
    | .refused r => .refused r

/-- The result of an output under the limit: BufferTooSmall when it is longer (41_compress.md R140,
42_decompress.md R170). -/
def underLimit (out : List Byte) (lim : Nat) : Result :=
  if out.length > lim then .err .bufferTooSmall else .ok out

/-- The end of the encoder's pass (41_compress.md R140): the output is committed, or BufferTooSmall. -/
def finishEncode (lim : Nat) (s : State) : Host.Outcome State Fault Refusal :=
  match s.work with
  | .encoder w => .next (s.complete lim (underLimit w.result lim))
  | .none => .refused .tokenContext
  | .decoder _ => .refused .tokenContext

/-! ## The decoder -/

/-- The decoder's working state at the start of a DECOMPRESS (42_decompress.md R171). -/
def DecoderWork.start : DecoderWork := { st := .idle, i := 0, out := [] }

/-- The decoder reads the listed bytes in order, one token each. -/
def decodeBytes (bs : List Byte) (s : State) : Host.Outcome State Fault Refusal :=
  match bs with
  | [] => .next s
  | b :: rest =>
    match decodeByte b s with
    | .next t => decodeBytes rest t
    | .fault f => .fault f
    | .refused r => .refused r

/-- The result at the end of the stream (42_decompress.md R175, R170, R179): Malformed unless the state is Idle, and
that before the output's length is compared with the limit. -/
def DecoderWork.result (w : DecoderWork) (lim : Nat) : Result :=
  match w.st with
  | .pendingValue _ => .err .malformedEncoding
  | .idle => underLimit w.out lim

/-- The end of the decoder's pass (42_decompress.md R170, R175). -/
def finishDecode (lim : Nat) (s : State) : Host.Outcome State Fault Refusal :=
  withDecoder s fun w => .next (s.complete lim (w.result lim))

end Sys2Proof.Machine
end

