-- ==== Sys2Proof/Machine/Command.lean ====
section
/-! DEFINITION. The commands COMPRESS, DECOMPRESS and ILLEGAL_CMD: the completion step of a latched command
(spec/40_commands.md R112 to R114, spec/41_compress.md R140, spec/42_decompress.md R170,
spec/60_exceptions.md R204). Each is one atomic step (spec/20_memory.md R63): the passes run inside it and leave no
working state behind. -/

namespace Sys2Proof.Machine

/-- Carries an outcome's state on to the next part of one step. -/
def andThen (o : Host.Outcome State Fault Refusal) (k : State → Host.Outcome State Fault Refusal) :
    Host.Outcome State Fault Refusal :=
  match o with
  | .next t => k t
  | .fault f => .fault f
  | .refused r => .refused r

/-- COMPRESS (41_compress.md R140): an input byte with bit 7 set gives the Unspec completion (R146); otherwise the
encoder's pass runs and its output is committed under the limit. -/
def execCompress (s : State) : Host.Outcome State Fault Refusal :=
  withInput s fun p src =>
    if validInput src then
      andThen (encodeBytes src (s.setWork (.encoder EncoderWork.start))) (finishEncode p.lim.toNat)
    else .next (s.complete p.lim.toNat .unspec)

/-- DECOMPRESS (42_decompress.md R170): the decoder's pass runs, one token a byte, and its output is committed under
the limit. -/
def execDecompress (s : State) : Host.Outcome State Fault Refusal :=
  withInput s fun p src =>
    andThen (decodeBytes src (s.setWork (.decoder DecoderWork.start))) (finishDecode p.lim.toNat)

/-- ILLEGAL_CMD (60_exceptions.md R204, 40_commands.md R113): completes with IllegalCommand; it reads no input, and no
operand but the word itself. -/
def execIllegalCmd (_w : Word) (s : State) : Host.Outcome State Fault Refusal :=
  match s.pend with
  | none => .refused .noCommand
  | some _ => .next (s.raiseError .illegalCommand)

end Sys2Proof.Machine
end

