-- ==== Sys2Proof/Machine/Dispatch.lean ====
section
/-! DEFINITION. The dispatch: one arm per constructor of Instr. -/

namespace Sys2Proof.Machine

def exec (i : Instr) (s : State) : Host.Outcome State Fault Refusal :=
  match i with
  | .compress => Sys2Proof.Machine.execCompress s
  | .decompress => Sys2Proof.Machine.execDecompress s
  | .illegalCmd w => Sys2Proof.Machine.execIllegalCmd w s
  | .marker c => Sys2Proof.Machine.execMarker c s
  | .literal v => Sys2Proof.Machine.execLiteral v s
  | .repeatValue x v => Sys2Proof.Machine.execRepeatValue x v s

end Sys2Proof.Machine
end

