-- ==== Sys2Proof/Machine/HostMove.lean ====
section
/-! DEFINITION. The host's move: one line of its program (spec/30_encoding.md R91, R92). -/

namespace Sys2Proof.Machine

/-- The number of bits an access of size `n` carries. -/
def Size.bits : Size → Nat
  | .one => 8
  | .two => 16
  | .four => 32

/-- The data as the bus presents it: the low bits that the access carries (30_encoding.md R91, R92). -/
def busData (n : Size) (v : Word) : Word := (v.setWidth n.bits).setWidth 32

/-- The value of a write line's data operand: a number, or a host variable set by an earlier read line
(30_encoding.md R91). -/
def HostAgent.value (h : HostAgent) : Operand → Except Refusal Word
  | .num v => .ok v
  | .var x =>
    match Cells.read h.vars x with
    | none => .error (.unsetVariable x)
    | some v => .ok v

/-- The line of the label `l`, counted from line `k`. -/
def findLabel (l k : Nat) : List Line → Option Nat
  | [] => none
  | .label m :: rest => if m = l then some k else findLabel l (k + 1) rest
  | .wr _ _ _ :: rest => findLabel l (k + 1) rest
  | .rd _ _ _ :: rest => findLabel l (k + 1) rest
  | .jnz _ _ _ :: rest => findLabel l (k + 1) rest
  | .halt :: rest => findLabel l (k + 1) rest

/-- Puts the host at line `k`. -/
def State.goto (s : State) (k : Nat) : State := { s with host := { s.host with line := k } }

/-- Puts the host at the next line. -/
def State.nextLine (s : State) : State := s.goto (s.host.line + 1)

/-- Records a transaction on the bus (30_encoding.md R92). -/
def State.onBus (s : State) (t : BusTxn) : State := { s with bus := some t }

/-- Sets the host variable `x`. -/
def State.setVar (s : State) (x : Nat) (v : Word) : State :=
  { s with host := { s.host with vars := Cells.write s.host.vars x v } }

/-- A write line: one host bus write. -/
def hostWrite (n : Size) (a : Offset) (d : Operand) (s : State) : Host.Outcome State Fault Refusal :=
  match s.host.value d with
  | .error r => .refused r
  | .ok v => .next ((s.memWrite a n v).onBus { dir := .w, size := n, off := a, data := busData n v }).nextLine

/-- A read line: one host bus read, its value into the host variable `x`. -/
def hostRead (n : Size) (a : Offset) (x : Nat) (s : State) : Host.Outcome State Fault Refusal :=
  match s.memRead a n with
  | .error f => .fault f
  | .ok (v, t) => .next (((t.setVar x v).onBus { dir := .r, size := n, off := a, data := v }).nextLine)

/-- `JNZ x, mask, l`: the block sees nothing of it. -/
def hostJnz (x : Nat) (mask : Word) (l : Nat) (s : State) : Host.Outcome State Fault Refusal :=
  match Cells.read s.host.vars x with
  | none => .refused (.unsetVariable x)
  | some v =>
    if v &&& mask = 0 then .next s.nextLine
    else
      match findLabel l 0 s.host.prog with
      | none => .refused (.noSuchLabel l)
      | some k => .next (s.goto k)

/-- The host's move. At `HALT`, and past the last line, the host has no further access (log entry 9). -/
def hostMove (s : State) : Host.Outcome State Fault Refusal :=
  match s.host.prog[s.host.line]? with
  | none => .next s
  | some .halt => .next s
  | some (.label _) => .next s.nextLine
  | some (.wr n a d) => hostWrite n a d s
  | some (.rd n a x) => hostRead n a x s
  | some (.jnz x mask l) => hostJnz x mask l s

end Sys2Proof.Machine
end

