-- ==== Sys2Proof/Machine/Engine.lean ====
section
/-! DEFINITION. Whose move it is, the engine's move and its fetch (spec/20_memory.md R65, spec/40_commands.md R112). -/

namespace Sys2Proof.Machine

/-- What the engine does next. -/
inductive EngineTask where
  /-- run the instruction: a latched command, or a stream token inside a DECOMPRESS -/
  | run (i : Instr)
  /-- inside a COMPRESS: look at the byte -/
  | encode (b : Byte)
  /-- inside a COMPRESS or DECOMPRESS: the input has ended -/
  | finish (lim : Nat)
  /-- the byte `IN_BUF[i]` due next holds no value -/
  | unwritten (i : Nat)
  /-- no command is latched: the engine has no step -/
  | idle
  deriving DecidableEq, Repr

/-- The next byte of the input window, or its end (20_memory.md R60: never a byte at or past `n`). -/
def State.nextInput (s : State) (p : Pend) (i : Nat) (k : Byte → EngineTask) : EngineTask :=
  if i < p.n.toNat then
    match Cells.read s.inBuf i with
    | none => .unwritten i
    | some b => k b
  else .finish p.lim.toNat

/-- The engine's fetch. With no pass open it is the latched command word, decoded (30_encoding.md R81). With a pass open
it is the next byte of the input window; in a DECOMPRESS that byte is decoded in the decoder's state
(30_encoding.md R89). -/
def engineFetch (s : State) : EngineTask :=
  match s.pend with
  | none => .idle
  | some p =>
    match s.work with
    | .none => .run (decodeCmd p.op)
    | .decoder w => s.nextInput p w.i fun b => .run (decodeToken w.st b)
    | .encoder w => s.nextInput p w.next fun b => .encode b

/-- The end of the open pass. -/
def finishPass (lim : Nat) (s : State) : Host.Outcome State Fault Refusal :=
  match s.work with
  | .none => .refused .tokenContext
  | .encoder _ => finishEncode lim s
  | .decoder _ => finishDecode lim s

/-- The engine's step: the whole completion of the latched command (40_commands.md R112); in a state in which a pass is
open, the pass's next transition (log entry 5). -/
def engineStep (s : State) : Host.Outcome State Fault Refusal :=
  match engineFetch s with
  | .run i => exec i s
  | .encode b => encodeByte b s
  | .finish lim => finishPass lim s
  | .unwritten i => .fault (.unwrittenInput i)
  | .idle => .refused .noCommand

/-- Takes one agent's move. When `pend = None` the engine has no step (40_commands.md R112), so its turn passes. -/
def agentMove (a : Agent) (s : State) : Host.Outcome State Fault Refusal :=
  match a with
  | .host => hostMove s
  | .engine => if s.pend.isSome then engineStep s else .next s
  | .reset => .next s.resetBlock

/-- Whose turn it is: the first entry of `sched`; with none left, the engine's when a command is latched (so that every
accepted command completes, 40_commands.md R118), and the host's otherwise (log entry 1). -/
def State.turn (s : State) : Agent :=
  match s.sched with
  | a :: _ => a
  | [] => if s.pend.isSome then .engine else .host

/-- The state with its present turn used up. -/
def State.turnTaken (s : State) : State := { s with sched := s.sched.tail }

/-- One step of the block and the agents around it (20_memory.md R65). A completion is atomic (R63), so while a pass is
open no other agent moves. -/
def machineMove (s : State) : Host.Outcome State Fault Refusal :=
  match s.work with
  | .none => agentMove s.turn s.turnTaken
  | .encoder _ => engineStep s
  | .decoder _ => engineStep s

/-- Latches the command word `w` as an acceptance does (40_commands.md R110), whatever BUSY was, with no pass open and
the engine to move next. -/
def State.placeCommand (s : State) (w : Word) : State :=
  { ({ s with busy := false }).commandWrite w with work := .none, sched := .engine :: s.sched }

/-- Places the byte `b` as the whole input of a DECOMPRESS that has just begun: the decoder is open in Idle at
index 0, and `b` is what it reads next. -/
def State.placeStreamByte (s : State) (b : Byte) : State :=
  let t : State := { s with busy := false, inLen := 1, inBuf := Cells.write s.inBuf 0 b }
  { t.commandWrite 0x00000002#32 with work := .decoder DecoderWork.start }

end Sys2Proof.Machine
end

