-- ==== Sys2Proof/Machine/Step.lean ====
section
/-! DEFINITION. The step, and where the next instruction is placed. -/

namespace Sys2Proof.Machine

/-- One step of the machine: the move of the agent whose turn it is (20_memory.md R65). -/
def step (s : State) : Host.Outcome State Fault Refusal := machineMove s

/-- `s` with the instruction of `nbits` bits with value `w` placed so that the very next step runs it: a command word in
the latch with the engine to move, a stream byte under a decoder that has just begun (log entry 7). -/
def State.withFetchWord (s : State) (nbits w : Nat) : State :=
  if nbits = 8 then s.placeStreamByte (BitVec.ofNat 8 w) else s.placeCommand (BitVec.ofNat 32 w)

end Sys2Proof.Machine
end

