-- ==== Sys2Proof/Safety.lean ====
section
/-! DEFINITION. What the statements speak about: the invariant of the block, its reachable states, a command in
flight with its input, and what a completion may and may not change. -/

namespace Sys2Proof.Machine

/-- The invariant of the block: what the rules say holds in every reachable state. -/
structure Inv (s : State) : Prop where
  /-- `1 <= IN_CAP, OUT_CAP <= 2^20` (00_scope.md section 3) -/
  inCap_pos : 1 ≤ s.inCap
  inCap_le : s.inCap ≤ Config.capMax
  outCap_pos : 1 ≤ s.outCap
  outCap_le : s.outCap ≤ Config.capMax
  /-- BUSY equals 1 exactly when the latch holds a command (10_state.md R24) -/
  busy_iff : s.busy = s.pend.isSome
  /-- the legal values of (BUSY, DONE) are (0,0), (1,0) and (0,1) (10_state.md R23) -/
  not_both : ¬(s.busy = true ∧ s.done = true)
  /-- ERR is non-zero only when DONE = 1 (10_state.md R23) -/
  err_done : s.err ≠ 0 → s.done = true
  /-- ERR is at most 4 (60_exceptions.md R208) -/
  err_le : s.err.toNat ≤ 4
  /-- the latched lengths equal IN_LEN and OUT_LIMIT (10_state.md R35) -/
  latch : ∀ p, s.pend = some p → p.n = s.inLen ∧ p.lim = s.outLimit
  /-- OUT_LEN is the output length of a command that completed with ERR = 0, and 0 otherwise (10_state.md R29) -/
  outLen_result : s.outLen ≠ 0 → s.done = true ∧ s.err = 0
  outLen_le : s.outLen.toNat ≤ s.outCap
  /-- the bytes of the result hold values (40_commands.md R114) -/
  written : ∀ i, i < s.outLen.toNat → (Cells.read s.outBuf i).isSome = true
  /-- the buffers are in canonical form, with no byte past their capacity (10_state.md R33, R34) -/
  in_wf : Memory.wf s.inBuf = true
  out_wf : Memory.wf s.outBuf = true
  in_below : Memory.below s.inCap s.inBuf = true
  out_below : Memory.below s.outCap s.outBuf = true
  /-- no working state exists outside a completion step (10_state.md R36, R37, section 5) -/
  closed : s.work = .none

/-- An instance of any legal capacities directly after a reset, with any host program, any order of moves and any draw
counter. -/
def State.boot (inCap outCap : Nat) (prog : List Line) (sched : List Agent) (draws : Nat) : State :=
  { State.resetOf inCap outCap with
    host := { prog := prog, line := 0, vars := [] }
    sched := sched
    draws := draws }

/-- The states of runs (20_memory.md R65). -/
inductive Reachable : State → Prop where
  | boot (inCap outCap : Nat) (prog : List Line) (sched : List Agent) (draws : Nat)
      (hi : 1 ≤ inCap ∧ inCap ≤ Config.capMax) (ho : 1 ≤ outCap ∧ outCap ≤ Config.capMax) :
      Reachable (State.boot inCap outCap prog sched draws)
  | step {s t : State} (h : Reachable s) (hs : step s = .next t) : Reachable t

/-- The command `p` is latched in `s`, its lengths are legal, and its input window holds `src`
(40_commands.md R110, R113). -/
structure InFlight (s : State) (p : Pend) (src : List Byte) : Prop where
  latched : s.pend = some p
  n_le : p.n.toNat ≤ s.inCap
  lim_le : p.lim.toNat ≤ s.outCap
  length : src.length = p.n.toNat
  window : ∀ i (h : i < src.length), Cells.read s.inBuf i = some src[i]

/-- What no completion writes: IN_LEN, OUT_LIMIT, IN_BUF (40_commands.md R115), the capacities, and the other agents. -/
structure Untouched (s t : State) : Prop where
  inLen : t.inLen = s.inLen
  outLimit : t.outLimit = s.outLimit
  inCap : t.inCap = s.inCap
  outCap : t.outCap = s.outCap
  inBuf : t.inBuf = s.inBuf
  host : t.host = s.host
  sched : t.sched = s.sched
  bus : t.bus = s.bus

/-- `t` is `s` after a completion with result code `code` (40_commands.md R112). -/
structure Completed (s t : State) (code : ErrBits) : Prop where
  busy : t.busy = false
  done : t.done = true
  err : t.err = code
  pend : t.pend = none
  work : t.work = .none
  frame : Untouched s t

/-- `t` is `s` after a completion with the output `out` (40_commands.md R114): OUT_LEN is its length, OUT_BUF holds it
from index 0 on, and every other byte of OUT_BUF reads as before. -/
structure Committed (s t : State) (out : List Byte) : Prop where
  completed : Completed s t 0
  outLen : t.outLen.toNat = out.length
  output : ∀ i (h : i < out.length), Cells.read t.outBuf i = some out[i]
  rest : ∀ i, out.length ≤ i → Cells.read t.outBuf i = Cells.read s.outBuf i
  draws : t.draws = s.draws

/-- `t` is `s` after a completion with the error `code` (40_commands.md R114, 60_exceptions.md R210): OUT_LEN is 0, and
every byte of OUT_BUF reads as before. -/
structure Failed (s t : State) (code : ErrBits) : Prop where
  completed : Completed s t code
  outLen : t.outLen = 0
  rest : ∀ i, Cells.read t.outBuf i = Cells.read s.outBuf i
  draws : t.draws = s.draws

end Sys2Proof.Machine
end

