-- ==== Sys2Proof/Certificates/Slice0/Obligations.lean ====
section
/-! DEFINITION. The statements for the provers, from the numbered rules of spec/. -/

open Sys2Proof Sys2Proof.Machine

/-! ## Encodings -/

/-- Every well-formed instruction, encoded, decodes to itself wherever it can stand, and it can stand somewhere
(30_encoding.md R81, R84, R85, R89). -/
def Obligations.EncodeThenDecode : Prop :=
  ∀ i : Instr, i.wellFormed = true →
    (∃ c, i.standsIn c = true) ∧ ∀ c, i.standsIn c = true → decode c (encode i) = .ok i

/-- Every unit of code that decodes gives a well-formed instruction that stands there and encodes to that very unit: no
bit is dropped, and each unit has one meaning in its context. -/
def Obligations.DecodeThenEncode : Prop :=
  ∀ (c : Context) (u : CodeUnit) (i : Instr), decode c u = .ok i →
    i.wellFormed = true ∧ i.standsIn c = true ∧ encode i = u

/-- The command word's opcode map (30_encoding.md R81): two legal words, every other one illegal; and a word with a
non-zero bit in 31:8 is among the others. -/
def Obligations.CommandWordMap : Prop :=
  decode .cmdWrite (.cmd32 0x00000001#32) = .ok .compress ∧
  decode .cmdWrite (.cmd32 0x00000002#32) = .ok .decompress ∧
  (∀ w : Word, w ≠ 0x00000001#32 → w ≠ 0x00000002#32 → decode .cmdWrite (.cmd32 w) = .ok (.illegalCmd w)) ∧
  (∀ w : Word, w.extractLsb' 8 24 ≠ 0 → decode .cmdWrite (.cmd32 w) = .ok (.illegalCmd w))

/-- The token table (30_encoding.md R89), with the fields as numbers (R84, R85). -/
def Obligations.StreamTokenTable : Prop :=
  ∀ b : Byte,
    (128 ≤ b.toNat → decode (.stream .idle) (.stream8 b) = .ok (.marker (BitVec.ofNat 7 (b.toNat - 128)))) ∧
    (b.toNat < 128 → decode (.stream .idle) (.stream8 b) = .ok (.literal (BitVec.ofNat 7 b.toNat))) ∧
    (∀ c, decode (.stream (.pendingValue c)) (.stream8 b) =
      .ok (.repeatValue (BitVec.ofNat 1 (b.toNat / 128)) (BitVec.ofNat 7 (b.toNat % 128))))

/-- Words written out from the opcode table's "encoding" column decode to their instructions. -/
def Obligations.TableWordsDecode : Prop :=
  decodeTableWord 32 0b00000000000000000000000000000001 = some .compress ∧
  decodeTableWord 32 0b00000000000000000000000000000010 = some .decompress ∧
  decodeTableWord 32 0b00000000000000000000000100000001 = some (.illegalCmd 0x101#32) ∧
  decodeTableWord 8 0b10000011 = some (.marker 3#7) ∧
  decodeTableWord 8 0b00000101 = some (.literal 5#7) ∧
  decode (.stream (.pendingValue 2#7)) (.stream8 0b10000101#8) = .ok (.repeatValue 1#1 5#7)

/-! ## Reset -/

/-- A reset step (70_reset_and_hazards.md R230 to R232, 10_state.md section 5): every register at its reset value, the
latch empty, no buffer byte with a value, the capacities kept. That a byte holds no value is log entry 2. -/
def Obligations.ResetStep : Prop :=
  ∀ s : State, s.work = .none → s.turn = .reset →
    ∃ t, step s = .next t ∧
      t.busy = false ∧ t.done = false ∧ t.err = 0 ∧ t.inLen = 0 ∧ t.outLimit = BitVec.ofNat 32 s.outCap ∧
      t.outLen = 0 ∧ t.pend = none ∧ t.work = .none ∧ t.inCap = s.inCap ∧ t.outCap = s.outCap ∧
      (∀ i, Cells.read t.inBuf i = none) ∧ (∀ i, Cells.read t.outBuf i = none)

/-- The invariant holds directly after a reset, for every legal pair of capacities, host program and order of moves, and
at `State.reset`. -/
def Obligations.ResetHasInvariant : Prop :=
  (∀ (inCap outCap : Nat) (prog : List Line) (sched : List Agent) (draws : Nat),
    1 ≤ inCap → inCap ≤ Config.capMax → 1 ≤ outCap → outCap ≤ Config.capMax →
      Inv (State.boot inCap outCap prog sched draws)) ∧
  Inv State.reset

/-! ## The step -/

/-- Every step keeps the invariant (10_state.md R23, R24, R29, R33 to R35; 60_exceptions.md R208), whichever agent
moves and whatever the host's program is. -/
def Obligations.StepKeepsInvariant : Prop :=
  ∀ s t : State, Inv s → step s = .next t → Inv t

/-- When it is the engine's turn and a command is latched, the step is the meaning of the instruction its word decodes
to, with the turn used up (40_commands.md R112). -/
def Obligations.StepRunsLatchedCommand : Prop :=
  ∀ (s : State) (p : Pend) (i : Instr), s.work = .none → s.turn = .engine → s.pend = some p →
    decode .cmdWrite (.cmd32 p.op) = .ok i →
      step s = exec i { s with sched := s.sched.tail }

/-- With a decoder open and input left, the step is the meaning of the token that the next byte decodes to in the
decoder's state (30_encoding.md R89). A state with an open pass is the model's (log entry 5). -/
def Obligations.StepRunsStreamToken : Prop :=
  ∀ (s : State) (p : Pend) (w : DecoderWork) (b : Byte) (i : Instr), s.work = .decoder w → s.pend = some p →
    w.i < p.n.toNat → Cells.read s.inBuf w.i = some b → decode (.stream w.st) (.stream8 b) = .ok i →
      step s = exec i s

/-- An instruction placed by `withFetchWord` is what the very next step runs (the model's choice, log entry 7). -/
def Obligations.StepRunsPlacedWord : Prop :=
  ∀ (s : State) (nbits w : Nat) (i : Instr), decodeTableWord nbits w = some i →
    step (s.withFetchWord nbits w) = exec i { s.withFetchWord nbits w with sched := s.sched }

/-- A write line of the host program is one bus write, with the tuple `(W, size, off, data)` on the bus
(30_encoding.md R91, R92). The order of moves is log entry 1. -/
def Obligations.HostWriteLine : Prop :=
  ∀ (s : State) (n : Size) (a : Offset) (d : Operand) (v : Word), s.work = .none → s.turn = .host →
    s.host.prog[s.host.line]? = some (.wr n a d) → s.host.value d = .ok v →
      step s = .next { State.memWrite { s with sched := s.sched.tail } a n v with
        host := { s.host with line := s.host.line + 1 }
        bus := some { dir := .w, size := n, off := a, data := busData n v } }

/-- A read line of the host program is one bus read: its value goes into the host variable, and the tuple
`(R, size, off, data)` is on the bus (30_encoding.md R91, R92). -/
def Obligations.HostReadLine : Prop :=
  ∀ (s : State) (n : Size) (a : Offset) (x : Nat), s.work = .none → s.turn = .host →
    s.host.prog[s.host.line]? = some (.rd n a x) →
      (∀ v t, State.memRead { s with sched := s.sched.tail } a n = .ok (v, t) →
        step s = .next { t with
          host := { s.host with line := s.host.line + 1, vars := Cells.write s.host.vars x v }
          bus := some { dir := .r, size := n, off := a, data := v } }) ∧
      (∀ f, State.memRead { s with sched := s.sched.tail } a n = .error f → step s = .fault f)

/-- With no command latched, the commands have no meaning and the engine's turn passes without effect: "When `pend = None`
the engine has no step" (40_commands.md R112). The refusal is log entry 6. -/
def Obligations.NoCommandNoStep : Prop :=
  ∀ s : State, s.pend = none →
    exec .compress s = .refused .noCommand ∧
    exec .decompress s = .refused .noCommand ∧
    (∀ w, exec (.illegalCmd w) s = .refused .noCommand) ∧
    (s.work = .none → s.turn = .engine → step s = .next { s with sched := s.sched.tail })

/-! ## Host accesses -/

/-- Acceptance (40_commands.md R110): every word, legal or not. -/
def Obligations.AcceptanceLatches : Prop :=
  ∀ (s : State) (w : Word), s.busy = false →
    s.memWrite 0x000000#22 .four w =
      { s with
        pend := some { op := w, n := s.inLen, lim := s.outLimit }
        busy := true, done := false, err := 0, outLen := 0 }

/-- A CMD write while busy is ignored, and no move of the host takes the command in flight away (40_commands.md R111). -/
def Obligations.BusyCommandWriteIgnored : Prop :=
  (∀ (s : State) (w : Word), s.busy = true → s.memWrite 0x000000#22 .four w = s) ∧
  (∀ s t : State, s.busy = true → s.work = .none → s.turn = .host → step s = .next t →
    t.pend = s.pend ∧ t.busy = s.busy ∧ t.done = s.done ∧ t.err = s.err ∧ t.outLen = s.outLen ∧
    t.inBuf = s.inBuf ∧ t.outBuf = s.outBuf)

/-- IN_LEN and OUT_LIMIT store every written word when BUSY = 0, keep their value when BUSY = 1, and read back as
stored (10_state.md R27, R28). -/
def Obligations.LengthRegisters : Prop :=
  ∀ (s : State) (w : Word),
    (s.busy = false → s.memWrite 0x000008#22 .four w = { s with inLen := w }) ∧
    (s.busy = false → s.memWrite 0x00000C#22 .four w = { s with outLimit := w }) ∧
    (s.busy = true → s.memWrite 0x000008#22 .four w = s ∧ s.memWrite 0x00000C#22 .four w = s) ∧
    s.memRead 0x000008#22 .four = .ok (s.inLen, s) ∧
    s.memRead 0x00000C#22 .four = .ok (s.outLimit, s)

/-- The read-only registers and the reserved offsets: what they read, and that a write of them is ignored
(10_state.md R22, R23, R29 to R32). -/
def Obligations.ReadOnlyRegisters : Prop :=
  ∀ s : State,
    s.memRead 0x000000#22 .four = .ok (0, s) ∧
    s.memRead 0x000004#22 .four = .ok (s.statusWord, s) ∧
    s.memRead 0x000010#22 .four = .ok (s.outLen, s) ∧
    s.memRead 0x000014#22 .four = .ok (BitVec.ofNat 32 s.inCap, s) ∧
    s.memRead 0x000018#22 .four = .ok (BitVec.ofNat 32 s.outCap, s) ∧
    (∀ a : Offset, 0x1C ≤ a.toNat → a.toNat ≤ 0xFC → s.memRead a .four = .ok (0, s)) ∧
    (∀ (a : Offset) (w : Word), a = 0x000004#22 ∨ (0x10 ≤ a.toNat ∧ a.toNat ≤ 0xFC) → s.memWrite a .four w = s)

/-- STATUS bit by bit (10_state.md R23): BUSY, DONE, ERR, and the reserved bits read 0. -/
def Obligations.StatusLayout : Prop :=
  ∀ s : State,
    s.statusWord.getLsbD 0 = s.busy ∧
    s.statusWord.getLsbD 1 = s.done ∧
    s.statusWord.extractLsb' 2 2 = 0 ∧
    s.statusWord.extractLsb' 4 4 = s.err ∧
    s.statusWord.extractLsb' 8 24 = 0

/-- The register window answers 4-byte accesses at multiples of 4 and no other (20_memory.md R53). -/
def Obligations.RegisterWindowAccess : Prop :=
  ∀ (s : State) (a : Offset) (n : Size) (v : Word), a.toNat ≤ 0xFF →
    (n = .four ∧ a.toNat % 4 = 0 →
      s.memRead a n = .ok (s.regRead (regOf a), s) ∧ s.memWrite a n v = s.regWrite (regOf a) v) ∧
    (¬(n = .four ∧ a.toNat % 4 = 0) → s.memRead a n = .ok (0, s) ∧ s.memWrite a n v = s)

/-- The buffer windows answer 1-byte accesses only (20_memory.md R54). -/
def Obligations.BufferWindowsAnswerBytes : Prop :=
  ∀ (s : State) (a : Offset) (v : Word), s.inCap ≤ Config.capMax → s.outCap ≤ Config.capMax →
    (0x100000 ≤ a.toNat → a.toNat < 0x100000 + s.inCap →
      s.target a .one = .inByte (a.toNat - 0x100000) ∧
      ∀ n, n ≠ .one → s.memRead a n = .ok (0, s) ∧ s.memWrite a n v = s) ∧
    (0x200000 ≤ a.toNat → a.toNat < 0x200000 + s.outCap →
      s.target a .one = .outByte (a.toNat - 0x200000) ∧
      ∀ n, n ≠ .one → s.memRead a n = .ok (0, s) ∧ s.memWrite a n v = s)

/-- An unmapped offset (20_memory.md R51) reads 0 and ignores the write, at every access size (R52). -/
def Obligations.UnmappedOffsets : Prop :=
  ∀ (s : State) (a : Offset) (n : Size) (v : Word), s.inCap ≤ Config.capMax → s.outCap ≤ Config.capMax →
    (0x100 ≤ a.toNat ∧ a.toNat < 0x100000) ∨ (0x100000 + s.inCap ≤ a.toNat ∧ a.toNat < 0x200000) ∨
      0x200000 + s.outCap ≤ a.toNat →
    s.memRead a n = .ok (0, s) ∧ s.memWrite a n v = s

/-- A host write of `IN_BUF[i]` stores the byte when BUSY = 0 and is ignored when BUSY = 1 (20_memory.md R57); a read
returns the stored byte in either case (R56). -/
def Obligations.InputBufferBytes : Prop :=
  ∀ (s : State) (i : Nat) (v : Word), s.inCap ≤ Config.capMax → i < s.inCap →
    let a : Offset := BitVec.ofNat 22 (0x100000 + i)
    (s.busy = true → s.memWrite a .one v = s) ∧
    (s.busy = false →
      s.memWrite a .one v = { s with inBuf := (s.memWrite a .one v).inBuf } ∧
      Cells.read (s.memWrite a .one v).inBuf i = some (v.setWidth 8) ∧
      ∀ j, j ≠ i → Cells.read (s.memWrite a .one v).inBuf j = Cells.read s.inBuf j) ∧
    (∀ b, Cells.read s.inBuf i = some b → s.memRead a .one = .ok (b.setWidth 32, s))

/-- A host write of `OUT_BUF[i]` stores the byte when BUSY = 0 and is ignored when BUSY = 1 (20_memory.md R59); a read
returns the stored byte when BUSY = 0 and a draw when BUSY = 1, whether or not the byte was ever written (R58). That the
draw is `Config.drawByte` at the draw counter, which then advances by one, is the model's choice (log entry 3). -/
def Obligations.OutputBufferBytes : Prop :=
  ∀ (s : State) (i : Nat) (v : Word), s.inCap ≤ Config.capMax → s.outCap ≤ Config.capMax → i < s.outCap →
    let a : Offset := BitVec.ofNat 22 (0x200000 + i)
    (s.busy = true →
      s.memWrite a .one v = s ∧
      s.memRead a .one = .ok ((Config.drawByte s.draws).setWidth 32, { s with draws := s.draws + 1 })) ∧
    (s.busy = false →
      s.memWrite a .one v = { s with outBuf := (s.memWrite a .one v).outBuf } ∧
      Cells.read (s.memWrite a .one v).outBuf i = some (v.setWidth 8) ∧
      (∀ j, j ≠ i → Cells.read (s.memWrite a .one v).outBuf j = Cells.read s.outBuf j) ∧
      ∀ b, Cells.read s.outBuf i = some b → s.memRead a .one = .ok (b.setWidth 32, s))

/-- Host reads have no side effects; only a read of OUT_BUF while BUSY = 1 advances the draw counter
(20_memory.md R64). -/
def Obligations.HostReadsChangeNothing : Prop :=
  ∀ (s t : State) (a : Offset) (n : Size) (v : Word), s.memRead a n = .ok (v, t) →
    t = { s with draws := t.draws } ∧ (s.busy = false → t = s) ∧ (a.toNat < 0x200000 → t = s)

/-- No host access writes STATUS, but for a CMD write that is accepted (10_state.md R39, 20_memory.md R64); and no host
write changes OUT_LEN, the latch, the capacities or the engine's working state otherwise. -/
def Obligations.HostWritesLeaveStatus : Prop :=
  ∀ (s : State) (a : Offset) (n : Size) (v : Word), ¬(a = 0x000000#22 ∧ n = .four ∧ s.busy = false) →
    let t := s.memWrite a n v
    t.busy = s.busy ∧ t.done = s.done ∧ t.err = s.err ∧ t.outLen = s.outLen ∧ t.pend = s.pend ∧
    t.inCap = s.inCap ∧ t.outCap = s.outCap ∧ t.work = s.work ∧ t.draws = s.draws

/-- Reading a buffer byte that nothing has written since reset is a fault of the model that names the byte, for a host read
and for a legal command whose input window holds it (log entry 2; 93_implementation_defined.md U6). -/
def Obligations.UnwrittenBytesFault : Prop :=
  (∀ (s : State) (i : Nat), s.inCap ≤ Config.capMax → s.outCap ≤ Config.capMax →
    (i < s.inCap → Cells.read s.inBuf i = none →
      s.memRead (BitVec.ofNat 22 (0x100000 + i)) .one = .error (.unwrittenInput i)) ∧
    (i < s.outCap → s.busy = false → Cells.read s.outBuf i = none →
      s.memRead (BitVec.ofNat 22 (0x200000 + i)) .one = .error (.unwrittenOutput i))) ∧
  (∀ (s : State) (p : Pend) (i : Nat), s.pend = some p → p.n.toNat ≤ s.inCap → p.lim.toNat ≤ s.outCap →
    i < p.n.toNat → Cells.read s.inBuf i = none → (∀ j, j < i → (Cells.read s.inBuf j).isSome = true) →
      exec .compress s = .fault (.unwrittenInput i) ∧ exec .decompress s = .fault (.unwrittenInput i))

/-! ## COMPRESS -/

/-- COMPRESS of valid input whose encoding fits the limit completes with that encoding (41_compress.md R140, R144;
40_commands.md R114). -/
def Obligations.CompressCommitsEncoding : Prop :=
  ∀ (s : State) (p : Pend) (src : List Byte), InFlight s p src → validInput src = true →
    (rleEncode src).length ≤ p.lim.toNat →
      ∃ t, exec .compress s = .next t ∧ Committed s t (rleEncode src)

/-- COMPRESS of a window with a byte `>= 128` completes (41_compress.md R146): ERR is 0 or 2; OUT_LEN is at most the limit,
and 0 when ERR = 2; `OutBuf[0 .. lim)` holds some bytes; the rest of OUT_BUF reads as before. -/
def Obligations.CompressOutOfRange : Prop :=
  ∀ (s : State) (p : Pend) (src : List Byte), InFlight s p src → validInput src = false →
    ∃ t, exec .compress s = .next t ∧
      ((Completed s t 0 ∧ t.outLen.toNat ≤ p.lim.toNat) ∨ (Completed s t 2 ∧ t.outLen = 0)) ∧
      (∀ i, i < p.lim.toNat → (Cells.read t.outBuf i).isSome = true) ∧
      (∀ i, p.lim.toNat ≤ i → Cells.read t.outBuf i = Cells.read s.outBuf i)

/-! ## DECOMPRESS -/

/-- DECOMPRESS of a well-formed stream whose Values fit the limit completes with those Values (42_decompress.md R170, R176;
40_commands.md R114). -/
def Obligations.DecompressCommitsDecoding : Prop :=
  ∀ (s : State) (p : Pend) (src out : List Byte), InFlight s p src → rleDecode src = some out →
    out.length ≤ p.lim.toNat →
      ∃ t, exec .decompress s = .next t ∧ Committed s t out

/-- MalformedEncoding (60_exceptions.md R202): DECOMPRESS completes with ERR = 1 exactly when the decoder ends in state
PendingValue, whatever the limit is (42_decompress.md R179), with no output; COMPRESS never does. -/
def Obligations.MalformedEncodingExactly : Prop :=
  (∀ (s : State) (p : Pend) (src : List Byte), InFlight s p src →
    ∃ t, exec .decompress s = .next t ∧ (t.err = 1 ↔ rleDecode src = none) ∧
      (rleDecode src = none → Failed s t 1)) ∧
  (∀ s t : State, exec .compress s = .next t → t.err ≠ 1)

/-- BufferTooSmall (60_exceptions.md R203), for both commands: exactly when the input is otherwise acceptable and the
output would be longer than the limit; nothing is written. For COMPRESS never when `lim >= n` (41_compress.md R148). -/
def Obligations.BufferTooSmallExactly : Prop :=
  (∀ (s : State) (p : Pend) (src : List Byte), InFlight s p src → validInput src = true →
    ∃ t, exec .compress s = .next t ∧ (t.err = 2 ↔ p.lim.toNat < (rleEncode src).length) ∧ (t.err = 2 → Failed s t 2) ∧
      (p.n.toNat ≤ p.lim.toNat → t.err ≠ 2)) ∧
  (∀ (s : State) (p : Pend) (src : List Byte), InFlight s p src →
    ∃ t, exec .decompress s = .next t ∧
      (t.err = 2 ↔ ∃ out, rleDecode src = some out ∧ p.lim.toNat < out.length) ∧ (t.err = 2 → Failed s t 2))

/-- With a decoder open at its start, stepping token by token to the end of the stream does exactly what the atomic
DECOMPRESS does (42_decompress.md R171 to R176, 20_memory.md R63; log entry 5). -/
def Obligations.DecompressIsItsTokens : Prop :=
  ∀ (s : State) (p : Pend) (src : List Byte), InFlight s p src →
    core.run (src.length + 1) (s.setWork (.decoder DecoderWork.start)) = exec .decompress s

/-! ## Errors, and what the commands share -/

/-- BadLength (60_exceptions.md R205): a legal command whose latched lengths exceed a capacity completes with ERR = 4,
whatever IN_BUF holds. -/
def Obligations.BadLengthCompletes : Prop :=
  ∀ (s : State) (p : Pend), s.pend = some p → s.inCap < p.n.toNat ∨ s.outCap < p.lim.toNat →
    (∃ t, exec .compress s = .next t ∧ Failed s t 4) ∧ (∃ t, exec .decompress s = .next t ∧ Failed s t 4)

/-- IllegalCommand (60_exceptions.md R204): every accepted word other than the two legal ones completes with ERR = 3,
whatever IN_BUF and the lengths are. -/
def Obligations.IllegalCommandCompletes : Prop :=
  (∀ (s : State) (p : Pend) (w : Word), s.pend = some p → ∃ t, exec (.illegalCmd w) s = .next t ∧ Failed s t 3) ∧
  (∀ (s : State) (w : Word), s.busy = false → w ≠ 0x00000001#32 → w ≠ 0x00000002#32 →
    let a := s.memWrite 0x000000#22 .four w
    ∃ i t, decode .cmdWrite (.cmd32 w) = .ok i ∧ exec i a = .next t ∧ Failed a t 3)

/-- No completion writes IN_BUF, IN_LEN or OUT_LIMIT, or a byte of OUT_BUF at or past the limit, the Unspec case included
(40_commands.md R115); nor anything of the other agents. -/
def Obligations.CompletionFrame : Prop :=
  ∀ (i : Instr) (s t : State) (p : Pend), i.standsIn .cmdWrite = true → s.pend = some p → exec i s = .next t →
    Untouched s t ∧ ∀ a, p.lim.toNat ≤ a → Cells.read t.outBuf a = Cells.read s.outBuf a

/-- The result of a command is a function of its word, its lengths and its input window alone, but for COMPRESS on
out-of-range input (40_commands.md R116): what OUT_BUF, the registers and the rest of IN_BUF held before plays no part. -/
def Obligations.ResultDependsOnOperands : Prop :=
  ∀ (s s' : State) (p : Pend) (src : List Byte), InFlight s p src → InFlight s' p src →
    ∀ i : Instr, (i = .compress ∧ validInput src = true) ∨ i = .decompress →
      ∃ t t', exec i s = .next t ∧ exec i s' = .next t' ∧ t.err = t'.err ∧ t.outLen = t'.outLen ∧
        ∀ k, k < t.outLen.toNat → Cells.read t.outBuf k = Cells.read t'.outBuf k

/-- The engine's turn ends a latched command, whatever its word and lengths are (40_commands.md R118,
70_reset_and_hazards.md R240); a legal command needs every byte of its window written (log entry 2). -/
def Obligations.EngineTurnCompletes : Prop :=
  ∀ (s : State) (p : Pend), s.work = .none → s.turn = .engine → s.pend = some p →
    (∀ i, i < p.n.toNat → p.n.toNat ≤ s.inCap → (Cells.read s.inBuf i).isSome = true) →
      ∃ t, step s = .next t ∧ t.busy = false ∧ t.done = true ∧ t.pend = none ∧ t.err.toNat ≤ 4

/-- Every accepted command completes unless a reset comes first (40_commands.md R118): in a run that goes on past the
order still fixed in `sched`, the engine comes to its turn with the command still latched, and that step completes it.
The order of moves is log entry 1. -/
def Obligations.AcceptedCommandCompletes : Prop :=
  ∀ (s t : State) (p : Pend), Inv s → s.pend = some p → Agent.reset ∉ s.sched →
    core.run (s.sched.length + 1) s = .next t →
      ∃ k u v, k ≤ s.sched.length ∧ core.run k s = .next u ∧ u.pend = some p ∧ u.turn = .engine ∧
        step u = .next v ∧ v.pend = none ∧ v.busy = false ∧ v.done = true

/-- While a command runs, STATUS reads BUSY alone and OUT_LEN reads 0 (70_reset_and_hazards.md R235). -/
def Obligations.ReadsWhileBusy : Prop :=
  ∀ s : State, Inv s → s.busy = true →
    s.memRead 0x000004#22 .four = .ok (0x00000001#32, s) ∧ s.memRead 0x000010#22 .four = .ok (0, s)

/-- Once BUSY = 0, every byte of the result can be read: `OUT_BUF[0 .. OUT_LEN)` holds values (20_memory.md R67,
70_reset_and_hazards.md R237). -/
def Obligations.ResultReadable : Prop :=
  ∀ (s : State) (i : Nat), Inv s → s.busy = false → i < s.outLen.toNat →
    ∃ b : Byte, s.memRead (BitVec.ofNat 22 (0x200000 + i)) .one = .ok (b.setWidth 32, s)

/-! ## The stream tokens -/

/-- MARKER (42_decompress.md R172): in Idle, goes to PendingValue(c) and emits nothing; the marker byte `b` gives
`c = (b - 128) mod 256`. -/
def Obligations.MarkerTransition : Prop :=
  (∀ (s : State) (w : DecoderWork) (c : Value), s.work = .decoder w → w.st = .idle →
    exec (.marker c) s =
      .next { s with work := .decoder { st := .pendingValue c, i := w.i + 1, out := w.out } }) ∧
  (∀ b : Byte, b.getLsbD 7 = true →
    ∃ c : Value, decode (.stream .idle) (.stream8 b) = .ok (.marker c) ∧ c.toNat = (b.toNat - 128) % 256)

/-- LITERAL (42_decompress.md R173): in Idle, emits the Value once and stays Idle; the literal byte `b` is its own
Value. -/
def Obligations.LiteralTransition : Prop :=
  (∀ (s : State) (w : DecoderWork) (v : Value), s.work = .decoder w → w.st = .idle →
    exec (.literal v) s =
      .next { s with work := .decoder { st := .idle, i := w.i + 1, out := w.out ++ [v.setWidth 8] } }) ∧
  (∀ b : Byte, b.getLsbD 7 = false →
    ∃ v : Value, decode (.stream .idle) (.stream8 b) = .ok (.literal v) ∧ v.setWidth 8 = b)

/-- REPEAT_VALUE (42_decompress.md R174): in PendingValue(c), emits `c` copies of `b & 0x7F` and goes to Idle, whatever bit
7 of the byte is. -/
def Obligations.RepeatValueTransition : Prop :=
  (∀ (s : State) (w : DecoderWork) (c : Value) (x : BitVec 1) (v : Value), s.work = .decoder w →
    w.st = .pendingValue c →
    exec (.repeatValue x v) s =
      .next { s with
        work := .decoder { st := .idle, i := w.i + 1, out := w.out ++ List.replicate c.toNat (v.setWidth 8) } }) ∧
  (∀ (b : Byte) (c : Value),
    ∃ x v, decode (.stream (.pendingValue c)) (.stream8 b) = .ok (.repeatValue x v) ∧ v.setWidth 8 = b &&& 0x7F#8)

/-- A token changes the decoder's working state and nothing else: no register, no flag, no byte of either buffer. -/
def Obligations.TokenFrame : Prop :=
  ∀ (i : Instr) (d : DState) (s t : State), i.standsIn (.stream d) = true → exec i s = .next t →
    t = { s with work := t.work } ∧
    ∃ w w', s.work = .decoder w ∧ t.work = .decoder w' ∧ w'.i = w.i + 1 ∧ w.out <+: w'.out

/-- A token has no meaning where its row's context does not hold (30_encoding.md R89; log entry 6). -/
def Obligations.TokenOutOfContext : Prop :=
  ∀ (i : Instr) (s : State), i.standsIn .cmdWrite = false →
    (∀ w, s.work = .decoder w → i.standsIn (.stream w.st) = false) →
      exec i s = .refused .tokenContext

/-- The end of the stream (42_decompress.md R175): in Idle the output is committed or is too long; in PendingValue the
stream is Malformed and the output is discarded, for any count. A state with an open pass, and stepping inside it, are the
model's choice (log entry 5). -/
def Obligations.EndOfStream : Prop :=
  ∀ (s : State) (p : Pend) (w : DecoderWork), s.work = .decoder w → s.pend = some p → p.n.toNat ≤ w.i →
    (∀ c, w.st = .pendingValue c → ∃ t, step s = .next t ∧ Failed s t 1) ∧
    (w.st = .idle → p.lim.toNat < w.out.length → ∃ t, step s = .next t ∧ Failed s t 2) ∧
    (w.st = .idle → w.out.length ≤ p.lim.toNat → ∃ t, step s = .next t ∧ Committed s t w.out)

/-! ## Laws of the codec -/

/-- The run partition (41_compress.md R141): the unique list of runs of length at least 1 that concatenates to the input
and whose neighbours differ. -/
def Obligations.RunPartition : Prop :=
  ∀ (src : List Byte) (rs : List (Byte × Nat)),
    ((∀ r ∈ rs, 1 ≤ r.2) ∧ (rs.flatMap fun r => List.replicate r.2 r.1) = src ∧
      ∀ j (h : j + 1 < rs.length), rs[j].1 ≠ rs[j + 1].1) ↔ rs = runs src

/-- The chunks of a run (41_compress.md R142): lengths 1 to 127 that add up to the run, all but the last of them 127. -/
def Obligations.ChunkSplit : Prop :=
  ∀ (v : Byte) (l : Nat), 1 ≤ l →
    (∀ c ∈ chunks v l, c.1 = v ∧ 1 ≤ c.2 ∧ c.2 ≤ 127) ∧
    ((chunks v l).map Prod.snd).sum = l ∧
    (∀ j c, j + 1 < (chunks v l).length → (chunks v l)[j]? = some c → c.2 = 127)

/-- The greedy split emits the fewest bytes of all splits into chunks of at most 127 (41_compress.md R142). -/
def Obligations.GreedySplitIsShortest : Prop :=
  ∀ (v : Byte) (l : Nat) (cs : List Nat), (∀ c ∈ cs, 1 ≤ c ∧ c ≤ 127) → cs.sum = l →
    ((chunks v l).flatMap fun c => emit c.1 c.2).length ≤ (cs.flatMap fun c => emit v c).length

/-- The engine's single left-to-right pass computes the sequence that runs and chunks define (41_compress.md R144). -/
def Obligations.SinglePassEncodes : Prop :=
  ∀ src : List Byte, (src.foldl EncoderWork.push EncoderWork.start).result = rleEncode src

/-- The length law (41_compress.md R147): the cost formula, the bound by the input's length, and when it is reached. -/
def Obligations.EncodedLength : Prop :=
  ∀ src : List Byte,
    (rleEncode src).length = ((runs src).map fun r => cost r.2).sum ∧
    (rleEncode src).length ≤ src.length ∧
    ((rleEncode src).length = src.length ↔ ∀ r ∈ runs src, r.2 = 1 ∨ r.2 = 2)

/-- The shape of every emitted stream (30_encoding.md R87): markers are 0x82 to 0xFF, each followed by one value byte;
value bytes have bit 7 clear; no marker ends the stream; 0x80 and 0x81 never appear. -/
def Obligations.EmittedStreamShape : Prop :=
  ∀ src : List Byte, validInput src = true →
    (∃ gs, groups (rleEncode src) = some gs ∧ (gs.flatMap Group.bytes) = rleEncode src ∧
      (∀ b, Group.one b ∈ gs → b.getLsbD 7 = false) ∧
      (∀ b0 b1, Group.two b0 b1 ∈ gs → 0x82 ≤ b0.toNat ∧ b1.getLsbD 7 = false)) ∧
    (∀ b, (rleEncode src).getLast? = some b → b.getLsbD 7 = false) ∧
    0x80#8 ∉ rleEncode src ∧ 0x81#8 ∉ rleEncode src

/-- The two forms of the decoder compute the same result for every input (42_decompress.md R176). -/
def Obligations.DecoderFormsAgree : Prop :=
  (∀ src : List Byte, rleDecodeVars src = rleDecode src) ∧ rleDecode [] = some []

/-- A stream is Malformed exactly when its last group is cut short, and otherwise its Values are those of its groups in
stream order (30_encoding.md R86, 42_decompress.md R175). -/
def Obligations.DecodingIsByGroups : Prop :=
  ∀ src : List Byte,
    rleDecode src = (groups src).map (fun gs => gs.flatMap Group.values) ∧
    (∀ gs, groups src = some gs → gs.flatMap Group.bytes = src)

/-- Every decoded Value is `< 128`, so that the output is valid COMPRESS input (42_decompress.md R177). -/
def Obligations.DecodedValuesValid : Prop :=
  ∀ src out : List Byte, rleDecode src = some out → (∀ b ∈ out, b.toNat < 128) ∧ validInput out = true

/-- The output length of the decoder (42_decompress.md R178): the sum of the groups' counts, its bounds, and that both are
reached for every input length. -/
def Obligations.DecodedLength : Prop :=
  (∀ src out : List Byte, rleDecode src = some out →
    (∃ gs, groups src = some gs ∧
      out.length = (gs.map fun g => match g with
        | .one _ => 1
        | .two b0 _ => b0.toNat % 128).sum) ∧
    src.length % 2 ≤ out.length ∧ out.length ≤ 127 * (src.length / 2) + src.length % 2) ∧
  (∀ n : Nat,
    (∃ src out : List Byte, src.length = n ∧ rleDecode src = some out ∧ out.length = n % 2) ∧
    (∃ src out : List Byte, src.length = n ∧ rleDecode src = some out ∧ out.length = 127 * (n / 2) + n % 2))

/-- The round trip (42_decompress.md R180): as functions for every valid sequence, and at block level: valid input
COMPRESSed with `lim >= n`, and its output then DECOMPRESSed with `lim >= n`, is given back. -/
def Obligations.RoundTrip : Prop :=
  (∀ src : List Byte, validInput src = true → rleDecode (rleEncode src) = some src) ∧
  (∀ (s : State) (p : Pend) (src : List Byte), InFlight s p src → validInput src = true → p.n.toNat ≤ p.lim.toNat →
    ∃ t, exec .compress s = .next t ∧ t.err = 0 ∧
      ∀ (s' : State) (p' : Pend) (enc : List Byte), InFlight s' p' enc → enc.length = t.outLen.toNat →
        (∀ i (h : i < enc.length), Cells.read t.outBuf i = some enc[i]) → src.length ≤ p'.lim.toNat →
          ∃ t', exec .decompress s' = .next t' ∧ Committed s' t' src)

/-- The encoder is injective on valid inputs, and it is not the inverse of the decoder: a stream outside the encoder's image
decodes to Values that re-encode to a different stream, and there are such streams (41_compress.md R150). -/
def Obligations.EncoderInjective : Prop :=
  (∀ src src' : List Byte, validInput src = true → validInput src' = true → rleEncode src = rleEncode src' →
    src = src') ∧
  (∀ y x : List Byte, rleDecode y = some x → (∀ src, validInput src = true → rleEncode src ≠ y) → rleEncode x ≠ y) ∧
  (rleDecode [0x05, 0x05] = some [0x05, 0x05] ∧ rleEncode [0x05, 0x05] = [0x82, 0x05]) ∧
  (rleDecode [0x81, 0x05] = some [0x05] ∧ rleEncode [0x05] = [0x05])
end

