-- ==== Sys2Proof/Laws/State.lean ====
section
/-! SUPPORT. One lemma per field and per named update of State, so that no later proof unfolds a record update. -/

namespace Sys2Proof.Machine

variable (s : State)

/-! ## flagsAccept -/

@[simp] theorem State.flagsAccept_busy : s.flagsAccept.busy = true := rfl
@[simp] theorem State.flagsAccept_done : s.flagsAccept.done = false := rfl
@[simp] theorem State.flagsAccept_err : s.flagsAccept.err = 0 := rfl
@[simp] theorem State.flagsAccept_inLen : s.flagsAccept.inLen = s.inLen := rfl
@[simp] theorem State.flagsAccept_outLimit : s.flagsAccept.outLimit = s.outLimit := rfl
@[simp] theorem State.flagsAccept_outLen : s.flagsAccept.outLen = s.outLen := rfl
@[simp] theorem State.flagsAccept_inCap : s.flagsAccept.inCap = s.inCap := rfl
@[simp] theorem State.flagsAccept_outCap : s.flagsAccept.outCap = s.outCap := rfl
@[simp] theorem State.flagsAccept_inBuf : s.flagsAccept.inBuf = s.inBuf := rfl
@[simp] theorem State.flagsAccept_outBuf : s.flagsAccept.outBuf = s.outBuf := rfl
@[simp] theorem State.flagsAccept_pend : s.flagsAccept.pend = s.pend := rfl
@[simp] theorem State.flagsAccept_work : s.flagsAccept.work = s.work := rfl
@[simp] theorem State.flagsAccept_host : s.flagsAccept.host = s.host := rfl
@[simp] theorem State.flagsAccept_sched : s.flagsAccept.sched = s.sched := rfl
@[simp] theorem State.flagsAccept_bus : s.flagsAccept.bus = s.bus := rfl
@[simp] theorem State.flagsAccept_draws : s.flagsAccept.draws = s.draws := rfl

/-! ## flagsComplete -/

@[simp] theorem State.flagsComplete_busy (c : ErrCode) : (s.flagsComplete c).busy = false := rfl
@[simp] theorem State.flagsComplete_done (c : ErrCode) : (s.flagsComplete c).done = true := rfl
@[simp] theorem State.flagsComplete_err (c : ErrCode) : (s.flagsComplete c).err = c.bits := rfl
@[simp] theorem State.flagsComplete_inLen (c : ErrCode) : (s.flagsComplete c).inLen = s.inLen := rfl
@[simp] theorem State.flagsComplete_outLimit (c : ErrCode) : (s.flagsComplete c).outLimit = s.outLimit := rfl
@[simp] theorem State.flagsComplete_outLen (c : ErrCode) : (s.flagsComplete c).outLen = s.outLen := rfl
@[simp] theorem State.flagsComplete_inCap (c : ErrCode) : (s.flagsComplete c).inCap = s.inCap := rfl
@[simp] theorem State.flagsComplete_outCap (c : ErrCode) : (s.flagsComplete c).outCap = s.outCap := rfl
@[simp] theorem State.flagsComplete_inBuf (c : ErrCode) : (s.flagsComplete c).inBuf = s.inBuf := rfl
@[simp] theorem State.flagsComplete_outBuf (c : ErrCode) : (s.flagsComplete c).outBuf = s.outBuf := rfl
@[simp] theorem State.flagsComplete_pend (c : ErrCode) : (s.flagsComplete c).pend = s.pend := rfl
@[simp] theorem State.flagsComplete_work (c : ErrCode) : (s.flagsComplete c).work = s.work := rfl
@[simp] theorem State.flagsComplete_host (c : ErrCode) : (s.flagsComplete c).host = s.host := rfl
@[simp] theorem State.flagsComplete_sched (c : ErrCode) : (s.flagsComplete c).sched = s.sched := rfl
@[simp] theorem State.flagsComplete_bus (c : ErrCode) : (s.flagsComplete c).bus = s.bus := rfl
@[simp] theorem State.flagsComplete_draws (c : ErrCode) : (s.flagsComplete c).draws = s.draws := rfl

/-! ## finish -/

@[simp] theorem State.finish_busy (c : ErrCode) (len : Nat) (out : Memory) (d : Nat) : (s.finish c len out d).busy = false := rfl
@[simp] theorem State.finish_done (c : ErrCode) (len : Nat) (out : Memory) (d : Nat) : (s.finish c len out d).done = true := rfl
@[simp] theorem State.finish_err (c : ErrCode) (len : Nat) (out : Memory) (d : Nat) : (s.finish c len out d).err = c.bits := rfl
@[simp] theorem State.finish_inLen (c : ErrCode) (len : Nat) (out : Memory) (d : Nat) : (s.finish c len out d).inLen = s.inLen := rfl
@[simp] theorem State.finish_outLimit (c : ErrCode) (len : Nat) (out : Memory) (d : Nat) : (s.finish c len out d).outLimit = s.outLimit := rfl
@[simp] theorem State.finish_outLen (c : ErrCode) (len : Nat) (out : Memory) (d : Nat) : (s.finish c len out d).outLen = BitVec.ofNat 32 len := rfl
@[simp] theorem State.finish_inCap (c : ErrCode) (len : Nat) (out : Memory) (d : Nat) : (s.finish c len out d).inCap = s.inCap := rfl
@[simp] theorem State.finish_outCap (c : ErrCode) (len : Nat) (out : Memory) (d : Nat) : (s.finish c len out d).outCap = s.outCap := rfl
@[simp] theorem State.finish_inBuf (c : ErrCode) (len : Nat) (out : Memory) (d : Nat) : (s.finish c len out d).inBuf = s.inBuf := rfl
@[simp] theorem State.finish_outBuf (c : ErrCode) (len : Nat) (out : Memory) (d : Nat) : (s.finish c len out d).outBuf = out := rfl
@[simp] theorem State.finish_pend (c : ErrCode) (len : Nat) (out : Memory) (d : Nat) : (s.finish c len out d).pend = none := rfl
@[simp] theorem State.finish_work (c : ErrCode) (len : Nat) (out : Memory) (d : Nat) : (s.finish c len out d).work = .none := rfl
@[simp] theorem State.finish_host (c : ErrCode) (len : Nat) (out : Memory) (d : Nat) : (s.finish c len out d).host = s.host := rfl
@[simp] theorem State.finish_sched (c : ErrCode) (len : Nat) (out : Memory) (d : Nat) : (s.finish c len out d).sched = s.sched := rfl
@[simp] theorem State.finish_bus (c : ErrCode) (len : Nat) (out : Memory) (d : Nat) : (s.finish c len out d).bus = s.bus := rfl
@[simp] theorem State.finish_draws (c : ErrCode) (len : Nat) (out : Memory) (d : Nat) : (s.finish c len out d).draws = d := rfl

/-! ## raiseError -/

@[simp] theorem State.raiseError_busy (c : ErrCode) : (s.raiseError c).busy = false := rfl
@[simp] theorem State.raiseError_done (c : ErrCode) : (s.raiseError c).done = true := rfl
@[simp] theorem State.raiseError_err (c : ErrCode) : (s.raiseError c).err = c.bits := rfl
@[simp] theorem State.raiseError_inLen (c : ErrCode) : (s.raiseError c).inLen = s.inLen := rfl
@[simp] theorem State.raiseError_outLimit (c : ErrCode) : (s.raiseError c).outLimit = s.outLimit := rfl
@[simp] theorem State.raiseError_outLen (c : ErrCode) : (s.raiseError c).outLen = 0 := rfl
@[simp] theorem State.raiseError_inCap (c : ErrCode) : (s.raiseError c).inCap = s.inCap := rfl
@[simp] theorem State.raiseError_outCap (c : ErrCode) : (s.raiseError c).outCap = s.outCap := rfl
@[simp] theorem State.raiseError_inBuf (c : ErrCode) : (s.raiseError c).inBuf = s.inBuf := rfl
@[simp] theorem State.raiseError_outBuf (c : ErrCode) : (s.raiseError c).outBuf = s.outBuf := rfl
@[simp] theorem State.raiseError_pend (c : ErrCode) : (s.raiseError c).pend = none := rfl
@[simp] theorem State.raiseError_work (c : ErrCode) : (s.raiseError c).work = .none := rfl
@[simp] theorem State.raiseError_host (c : ErrCode) : (s.raiseError c).host = s.host := rfl
@[simp] theorem State.raiseError_sched (c : ErrCode) : (s.raiseError c).sched = s.sched := rfl
@[simp] theorem State.raiseError_bus (c : ErrCode) : (s.raiseError c).bus = s.bus := rfl
@[simp] theorem State.raiseError_draws (c : ErrCode) : (s.raiseError c).draws = s.draws := rfl

/-! ## setWork -/

@[simp] theorem State.setWork_busy (w : Work) : (s.setWork w).busy = s.busy := rfl
@[simp] theorem State.setWork_done (w : Work) : (s.setWork w).done = s.done := rfl
@[simp] theorem State.setWork_err (w : Work) : (s.setWork w).err = s.err := rfl
@[simp] theorem State.setWork_inLen (w : Work) : (s.setWork w).inLen = s.inLen := rfl
@[simp] theorem State.setWork_outLimit (w : Work) : (s.setWork w).outLimit = s.outLimit := rfl
@[simp] theorem State.setWork_outLen (w : Work) : (s.setWork w).outLen = s.outLen := rfl
@[simp] theorem State.setWork_inCap (w : Work) : (s.setWork w).inCap = s.inCap := rfl
@[simp] theorem State.setWork_outCap (w : Work) : (s.setWork w).outCap = s.outCap := rfl
@[simp] theorem State.setWork_inBuf (w : Work) : (s.setWork w).inBuf = s.inBuf := rfl
@[simp] theorem State.setWork_outBuf (w : Work) : (s.setWork w).outBuf = s.outBuf := rfl
@[simp] theorem State.setWork_pend (w : Work) : (s.setWork w).pend = s.pend := rfl
@[simp] theorem State.setWork_work (w : Work) : (s.setWork w).work = w := rfl
@[simp] theorem State.setWork_host (w : Work) : (s.setWork w).host = s.host := rfl
@[simp] theorem State.setWork_sched (w : Work) : (s.setWork w).sched = s.sched := rfl
@[simp] theorem State.setWork_bus (w : Work) : (s.setWork w).bus = s.bus := rfl
@[simp] theorem State.setWork_draws (w : Work) : (s.setWork w).draws = s.draws := rfl

/-! ## resetBlock -/

@[simp] theorem State.resetBlock_busy : s.resetBlock.busy = false := rfl
@[simp] theorem State.resetBlock_done : s.resetBlock.done = false := rfl
@[simp] theorem State.resetBlock_err : s.resetBlock.err = 0 := rfl
@[simp] theorem State.resetBlock_inLen : s.resetBlock.inLen = 0 := rfl
@[simp] theorem State.resetBlock_outLimit : s.resetBlock.outLimit = BitVec.ofNat 32 s.outCap := rfl
@[simp] theorem State.resetBlock_outLen : s.resetBlock.outLen = 0 := rfl
@[simp] theorem State.resetBlock_inCap : s.resetBlock.inCap = s.inCap := rfl
@[simp] theorem State.resetBlock_outCap : s.resetBlock.outCap = s.outCap := rfl
@[simp] theorem State.resetBlock_inBuf : s.resetBlock.inBuf = [] := rfl
@[simp] theorem State.resetBlock_outBuf : s.resetBlock.outBuf = [] := rfl
@[simp] theorem State.resetBlock_pend : s.resetBlock.pend = none := rfl
@[simp] theorem State.resetBlock_work : s.resetBlock.work = .none := rfl
@[simp] theorem State.resetBlock_host : s.resetBlock.host = s.host := rfl
@[simp] theorem State.resetBlock_sched : s.resetBlock.sched = s.sched := rfl
@[simp] theorem State.resetBlock_bus : s.resetBlock.bus = s.bus := rfl
@[simp] theorem State.resetBlock_draws : s.resetBlock.draws = s.draws := rfl

/-! ## goto -/

@[simp] theorem State.goto_busy (k : Nat) : (s.goto k).busy = s.busy := rfl
@[simp] theorem State.goto_done (k : Nat) : (s.goto k).done = s.done := rfl
@[simp] theorem State.goto_err (k : Nat) : (s.goto k).err = s.err := rfl
@[simp] theorem State.goto_inLen (k : Nat) : (s.goto k).inLen = s.inLen := rfl
@[simp] theorem State.goto_outLimit (k : Nat) : (s.goto k).outLimit = s.outLimit := rfl
@[simp] theorem State.goto_outLen (k : Nat) : (s.goto k).outLen = s.outLen := rfl
@[simp] theorem State.goto_inCap (k : Nat) : (s.goto k).inCap = s.inCap := rfl
@[simp] theorem State.goto_outCap (k : Nat) : (s.goto k).outCap = s.outCap := rfl
@[simp] theorem State.goto_inBuf (k : Nat) : (s.goto k).inBuf = s.inBuf := rfl
@[simp] theorem State.goto_outBuf (k : Nat) : (s.goto k).outBuf = s.outBuf := rfl
@[simp] theorem State.goto_pend (k : Nat) : (s.goto k).pend = s.pend := rfl
@[simp] theorem State.goto_work (k : Nat) : (s.goto k).work = s.work := rfl
@[simp] theorem State.goto_host (k : Nat) : (s.goto k).host = { s.host with line := k } := rfl
@[simp] theorem State.goto_sched (k : Nat) : (s.goto k).sched = s.sched := rfl
@[simp] theorem State.goto_bus (k : Nat) : (s.goto k).bus = s.bus := rfl
@[simp] theorem State.goto_draws (k : Nat) : (s.goto k).draws = s.draws := rfl

/-! ## nextLine -/

@[simp] theorem State.nextLine_busy : s.nextLine.busy = s.busy := rfl
@[simp] theorem State.nextLine_done : s.nextLine.done = s.done := rfl
@[simp] theorem State.nextLine_err : s.nextLine.err = s.err := rfl
@[simp] theorem State.nextLine_inLen : s.nextLine.inLen = s.inLen := rfl
@[simp] theorem State.nextLine_outLimit : s.nextLine.outLimit = s.outLimit := rfl
@[simp] theorem State.nextLine_outLen : s.nextLine.outLen = s.outLen := rfl
@[simp] theorem State.nextLine_inCap : s.nextLine.inCap = s.inCap := rfl
@[simp] theorem State.nextLine_outCap : s.nextLine.outCap = s.outCap := rfl
@[simp] theorem State.nextLine_inBuf : s.nextLine.inBuf = s.inBuf := rfl
@[simp] theorem State.nextLine_outBuf : s.nextLine.outBuf = s.outBuf := rfl
@[simp] theorem State.nextLine_pend : s.nextLine.pend = s.pend := rfl
@[simp] theorem State.nextLine_work : s.nextLine.work = s.work := rfl
@[simp] theorem State.nextLine_host : s.nextLine.host = { s.host with line := s.host.line + 1 } := rfl
@[simp] theorem State.nextLine_sched : s.nextLine.sched = s.sched := rfl
@[simp] theorem State.nextLine_bus : s.nextLine.bus = s.bus := rfl
@[simp] theorem State.nextLine_draws : s.nextLine.draws = s.draws := rfl

/-! ## onBus -/

@[simp] theorem State.onBus_busy (x : BusTxn) : (s.onBus x).busy = s.busy := rfl
@[simp] theorem State.onBus_done (x : BusTxn) : (s.onBus x).done = s.done := rfl
@[simp] theorem State.onBus_err (x : BusTxn) : (s.onBus x).err = s.err := rfl
@[simp] theorem State.onBus_inLen (x : BusTxn) : (s.onBus x).inLen = s.inLen := rfl
@[simp] theorem State.onBus_outLimit (x : BusTxn) : (s.onBus x).outLimit = s.outLimit := rfl
@[simp] theorem State.onBus_outLen (x : BusTxn) : (s.onBus x).outLen = s.outLen := rfl
@[simp] theorem State.onBus_inCap (x : BusTxn) : (s.onBus x).inCap = s.inCap := rfl
@[simp] theorem State.onBus_outCap (x : BusTxn) : (s.onBus x).outCap = s.outCap := rfl
@[simp] theorem State.onBus_inBuf (x : BusTxn) : (s.onBus x).inBuf = s.inBuf := rfl
@[simp] theorem State.onBus_outBuf (x : BusTxn) : (s.onBus x).outBuf = s.outBuf := rfl
@[simp] theorem State.onBus_pend (x : BusTxn) : (s.onBus x).pend = s.pend := rfl
@[simp] theorem State.onBus_work (x : BusTxn) : (s.onBus x).work = s.work := rfl
@[simp] theorem State.onBus_host (x : BusTxn) : (s.onBus x).host = s.host := rfl
@[simp] theorem State.onBus_sched (x : BusTxn) : (s.onBus x).sched = s.sched := rfl
@[simp] theorem State.onBus_bus (x : BusTxn) : (s.onBus x).bus = some x := rfl
@[simp] theorem State.onBus_draws (x : BusTxn) : (s.onBus x).draws = s.draws := rfl

/-! ## setVar -/

@[simp] theorem State.setVar_busy (x : Nat) (v : Word) : (s.setVar x v).busy = s.busy := rfl
@[simp] theorem State.setVar_done (x : Nat) (v : Word) : (s.setVar x v).done = s.done := rfl
@[simp] theorem State.setVar_err (x : Nat) (v : Word) : (s.setVar x v).err = s.err := rfl
@[simp] theorem State.setVar_inLen (x : Nat) (v : Word) : (s.setVar x v).inLen = s.inLen := rfl
@[simp] theorem State.setVar_outLimit (x : Nat) (v : Word) : (s.setVar x v).outLimit = s.outLimit := rfl
@[simp] theorem State.setVar_outLen (x : Nat) (v : Word) : (s.setVar x v).outLen = s.outLen := rfl
@[simp] theorem State.setVar_inCap (x : Nat) (v : Word) : (s.setVar x v).inCap = s.inCap := rfl
@[simp] theorem State.setVar_outCap (x : Nat) (v : Word) : (s.setVar x v).outCap = s.outCap := rfl
@[simp] theorem State.setVar_inBuf (x : Nat) (v : Word) : (s.setVar x v).inBuf = s.inBuf := rfl
@[simp] theorem State.setVar_outBuf (x : Nat) (v : Word) : (s.setVar x v).outBuf = s.outBuf := rfl
@[simp] theorem State.setVar_pend (x : Nat) (v : Word) : (s.setVar x v).pend = s.pend := rfl
@[simp] theorem State.setVar_work (x : Nat) (v : Word) : (s.setVar x v).work = s.work := rfl
@[simp] theorem State.setVar_host (x : Nat) (v : Word) : (s.setVar x v).host = { s.host with vars := Cells.write s.host.vars x v } := rfl
@[simp] theorem State.setVar_sched (x : Nat) (v : Word) : (s.setVar x v).sched = s.sched := rfl
@[simp] theorem State.setVar_bus (x : Nat) (v : Word) : (s.setVar x v).bus = s.bus := rfl
@[simp] theorem State.setVar_draws (x : Nat) (v : Word) : (s.setVar x v).draws = s.draws := rfl

/-! ## turnTaken -/

@[simp] theorem State.turnTaken_busy : s.turnTaken.busy = s.busy := rfl
@[simp] theorem State.turnTaken_done : s.turnTaken.done = s.done := rfl
@[simp] theorem State.turnTaken_err : s.turnTaken.err = s.err := rfl
@[simp] theorem State.turnTaken_inLen : s.turnTaken.inLen = s.inLen := rfl
@[simp] theorem State.turnTaken_outLimit : s.turnTaken.outLimit = s.outLimit := rfl
@[simp] theorem State.turnTaken_outLen : s.turnTaken.outLen = s.outLen := rfl
@[simp] theorem State.turnTaken_inCap : s.turnTaken.inCap = s.inCap := rfl
@[simp] theorem State.turnTaken_outCap : s.turnTaken.outCap = s.outCap := rfl
@[simp] theorem State.turnTaken_inBuf : s.turnTaken.inBuf = s.inBuf := rfl
@[simp] theorem State.turnTaken_outBuf : s.turnTaken.outBuf = s.outBuf := rfl
@[simp] theorem State.turnTaken_pend : s.turnTaken.pend = s.pend := rfl
@[simp] theorem State.turnTaken_work : s.turnTaken.work = s.work := rfl
@[simp] theorem State.turnTaken_host : s.turnTaken.host = s.host := rfl
@[simp] theorem State.turnTaken_sched : s.turnTaken.sched = s.sched.tail := rfl
@[simp] theorem State.turnTaken_bus : s.turnTaken.bus = s.bus := rfl
@[simp] theorem State.turnTaken_draws : s.turnTaken.draws = s.draws := rfl

end Sys2Proof.Machine
end

