-- ==== Sys2Proof/Laws/Memory.lean ====
section
/-! SUPPORT. Reading after writing, and that every operation keeps the canonical form of a buffer. -/

namespace Sys2Proof.Machine

variable {α : Type}

@[simp] theorem Cells.read_nil (a : Nat) : Cells.read ([] : List (Nat × α)) a = none := rfl

/-- A read after a write: the written value at its key, the old value elsewhere. -/
theorem Cells.read_write (m : List (Nat × α)) (a b : Nat) (v : α) :
    Cells.read (Cells.write m a v) b = if a = b then some v else Cells.read m b := by
  induction m with
  | nil => rfl
  | cons c rest ih =>
    obtain ⟨k, u⟩ := c
    simp only [Cells.write]
    by_cases hlt : a < k
    · simp only [hlt, if_true, Cells.read]
    · by_cases heq : a = k
      · subst heq
        by_cases hab : a = b <;> simp [Cells.read, hab]
      · simp only [hlt, heq, if_false, Cells.read, ih]
        by_cases hkb : k = b
        · have : a ≠ b := by omega
          simp [hkb, this]
        · simp [hkb]

@[simp] theorem Cells.read_write_same (m : List (Nat × α)) (a : Nat) (v : α) :
    Cells.read (Cells.write m a v) a = some v := by simp [Cells.read_write]

theorem Cells.read_write_other (m : List (Nat × α)) {a b : Nat} (v : α) (h : a ≠ b) :
    Cells.read (Cells.write m a v) b = Cells.read m b := by simp [Cells.read_write, h]

/-- A read below the first key that `writeList` writes. -/
theorem Cells.read_writeList_before (vs : List α) (m : List (Nat × α)) {a b : Nat} (h : b < a) :
    Cells.read (Cells.writeList m a vs) b = Cells.read m b := by
  induction vs generalizing m a with
  | nil => rfl
  | cons v rest ih =>
    rw [Cells.writeList, ih _ (by omega), Cells.read_write_other _ _ (by omega)]

/-- A read past the last key that `writeList` writes. -/
theorem Cells.read_writeList_after (vs : List α) (m : List (Nat × α)) {a b : Nat} (h : a + vs.length ≤ b) :
    Cells.read (Cells.writeList m a vs) b = Cells.read m b := by
  induction vs generalizing m a with
  | nil => rfl
  | cons v rest ih =>
    simp only [List.length_cons] at h
    rw [Cells.writeList, ih _ (by omega), Cells.read_write_other _ _ (by omega)]

/-- A read of a key that `writeList` writes. -/
theorem Cells.read_writeList_inside (vs : List α) (m : List (Nat × α)) (a i : Nat) (h : i < vs.length) :
    Cells.read (Cells.writeList m a vs) (a + i) = some vs[i] := by
  induction vs generalizing m a i with
  | nil => simp at h
  | cons v rest ih =>
    cases i with
    | zero => rw [Cells.writeList, Cells.read_writeList_before _ _ (by omega)]; simp
    | succ i =>
      have := ih (Cells.write m a v) (a + 1) i (by simpa using h)
      rw [Cells.writeList, show a + (i + 1) = a + 1 + i by omega, this]
      simp

/-- `readRange` answers a list exactly when the window lists it. -/
theorem Cells.readRange_eq_ok (m : List (Nat × α)) (a n : Nat) (vs : List α) :
    Cells.readRange m a n = .ok vs ↔
      vs.length = n ∧ ∀ i (h : i < vs.length), Cells.read m (a + i) = some vs[i] := by
  induction n generalizing a vs with
  | zero =>
    simp only [Cells.readRange, Except.ok.injEq, List.length_eq_zero_iff]
    constructor
    · rintro rfl; simp
    · rintro ⟨rfl, -⟩; rfl
  | succ n ih =>
    simp only [Cells.readRange]
    cases hr : Cells.read m a with
    | none =>
      simp only [reduceCtorEq, false_iff, not_and]
      intro hl h
      have := h 0 (by omega)
      simp [hr] at this
    | some v =>
      simp only
      constructor
      · intro h
        cases hrr : Cells.readRange m (a + 1) n with
        | error e => simp [hrr] at h
        | ok ws =>
          simp only [hrr, Except.ok.injEq] at h
          subst h
          obtain ⟨hl, hw⟩ := (ih (a + 1) ws).mp hrr
          refine ⟨by simp [hl], fun i hi => ?_⟩
          cases i with
          | zero => simpa using hr
          | succ i =>
            have := hw i (by simpa using hi)
            rw [show a + (i + 1) = a + 1 + i by omega, this]; simp
      · rintro ⟨hl, hw⟩
        cases vs with
        | nil => simp at hl
        | cons w ws =>
          have h0 := hw 0 (by simp)
          simp only [Nat.add_zero, hr, List.getElem_cons_zero, Option.some.injEq] at h0
          have hws : Cells.readRange m (a + 1) n = .ok ws := by
            refine (ih (a + 1) ws).mpr ⟨by simpa using hl, fun i hi => ?_⟩
            have := hw (i + 1) (by simpa using hi)
            rw [show a + 1 + i = a + (i + 1) by omega, this]; simp
          simp [hws, h0]

/-- `readRange` names the first key of the window that lists nothing. -/
theorem Cells.readRange_eq_error (m : List (Nat × α)) (a n i : Nat) (hi : i < n)
    (hn : Cells.read m (a + i) = none) (hb : ∀ j, j < i → (Cells.read m (a + j)).isSome = true) :
    Cells.readRange m a n = .error (a + i) := by
  induction n generalizing a i with
  | zero => omega
  | succ n ih =>
    cases i with
    | zero => simp only [Nat.add_zero] at hn ⊢; simp [Cells.readRange, hn]
    | succ i =>
      obtain ⟨v, hv⟩ := Option.isSome_iff_exists.mp (hb 0 (by omega))
      have hrec := ih (a + 1) i (by omega) (by rwa [show a + 1 + i = a + (i + 1) by omega])
        (fun j hj => by rw [show a + 1 + j = a + (j + 1) by omega]; exact hb (j + 1) (by omega))
      simp only [Nat.add_zero] at hv
      simp [Cells.readRange, hv, hrec, show a + 1 + i = a + (i + 1) by omega]

/-- A write keeps the keys strictly rising. -/
theorem Cells.risingFrom_write (m : List (Nat × α)) (lo a : Nat) (v : α) (ha : lo ≤ a)
    (h : Cells.risingFrom lo m = true) : Cells.risingFrom lo (Cells.write m a v) = true := by
  induction m generalizing lo with
  | nil => simp [Cells.write, Cells.risingFrom, ha]
  | cons c rest ih =>
    obtain ⟨k, u⟩ := c
    simp only [Cells.risingFrom, Bool.and_eq_true, decide_eq_true_eq] at h
    simp only [Cells.write]
    by_cases hlt : a < k
    · simp only [hlt, if_true, Cells.risingFrom, Bool.and_eq_true, decide_eq_true_eq]
      exact ⟨ha, by omega, h.2⟩
    · by_cases heq : a = k
      · subst heq; simp [Cells.risingFrom, h.1, h.2]
      · simp only [hlt, heq, if_false, Cells.risingFrom, Bool.and_eq_true, decide_eq_true_eq]
        exact ⟨h.1, ih (k + 1) (by omega) h.2⟩

theorem Cells.risingFrom_writeList (vs : List α) (m : List (Nat × α)) (a : Nat)
    (h : Cells.risingFrom 0 m = true) : Cells.risingFrom 0 (Cells.writeList m a vs) = true := by
  induction vs generalizing m a with
  | nil => exact h
  | cons v rest ih => exact ih _ _ (Cells.risingFrom_write m 0 a v (Nat.zero_le a) h)

/-- A write keeps a buffer's canonical form. -/
theorem Memory.wf_write (m : Memory) (a : Nat) (b : Byte) (h : Memory.wf m = true) :
    Memory.wf (Cells.write m a b) = true := Cells.risingFrom_write m 0 a b (Nat.zero_le a) h

/-- Writing a list of bytes keeps a buffer's canonical form. -/
theorem Memory.wf_writeList (m : Memory) (a : Nat) (bs : List Byte) (h : Memory.wf m = true) :
    Memory.wf (Cells.writeList m a bs) = true := Cells.risingFrom_writeList bs m a h

/-- A write below the capacity keeps every index below it. -/
theorem Memory.below_write (cap : Nat) (m : Memory) (a : Nat) (b : Byte) (ha : a < cap)
    (h : Memory.below cap m = true) : Memory.below cap (Cells.write m a b) = true := by
  induction m with
  | nil => simp [Cells.write, Memory.below, ha]
  | cons c rest ih =>
    obtain ⟨k, u⟩ := c
    simp only [Memory.below, Bool.and_eq_true, decide_eq_true_eq] at h
    simp only [Cells.write]
    split
    · simp [Memory.below, ha, h.1, h.2]
    · split
      · simp [Memory.below, ha, h.2]
      · simp [Memory.below, h.1, ih h.2]

/-- Writing a list of bytes that ends below the capacity keeps every index below it. -/
theorem Memory.below_writeList (cap : Nat) (bs : List Byte) (m : Memory) (a : Nat) (ha : a + bs.length ≤ cap)
    (h : Memory.below cap m = true) : Memory.below cap (Cells.writeList m a bs) = true := by
  induction bs generalizing m a with
  | nil => exact h
  | cons b rest ih =>
    simp only [List.length_cons] at ha
    exact ih _ _ (by omega) (Memory.below_write cap m a b (by omega) h)

/-- Every memory operation on the buffers keeps the canonical form: host writes of either buffer. -/
theorem State.writeIn_wf (s : State) (i : Nat) (b : Byte) (h : Memory.wf s.inBuf = true) :
    Memory.wf (s.writeIn i b).inBuf = true := by
  unfold State.writeIn
  split
  · exact h
  · exact Memory.wf_write _ _ _ h

theorem State.writeOut_wf (s : State) (i : Nat) (b : Byte) (h : Memory.wf s.outBuf = true) :
    Memory.wf (s.writeOut i b).outBuf = true := by
  unfold State.writeOut
  split
  · exact h
  · exact Memory.wf_write _ _ _ h

/-- Reset memory is in canonical form. -/
theorem State.reset_wf : Memory.wf State.reset.inBuf = true ∧ Memory.wf State.reset.outBuf = true := ⟨rfl, rfl⟩

end Sys2Proof.Machine
end

