-- ==== Sys2Proof/Laws/Ops.lean ====
section
/-! SUPPORT. For each shared operation, what it can do, said once. -/

namespace Sys2Proof.Machine

/-! ## Acceptance -/

/-- A CMD write when BUSY = 1 is ignored (40_commands.md R111). -/
theorem State.commandWrite_busy (s : State) (w : Word) (h : s.busy = true) : s.commandWrite w = s := by
  simp [State.commandWrite, h]

/-- A CMD write when BUSY = 0 latches the word and the lengths (40_commands.md R110). -/
theorem State.commandWrite_idle (s : State) (w : Word) (h : s.busy = false) :
    s.commandWrite w =
      { s.flagsAccept with pend := some { op := w, n := s.inLen, lim := s.outLimit }, outLen := 0 } := by
  simp [State.commandWrite, h]

/-! ## Completion -/

/-- A completion with an output no longer than the limit commits it. -/
theorem State.complete_ok (s : State) (lim : Nat) (out : List Byte) :
    s.complete lim (.ok out) = s.finish .none out.length (Cells.writeList s.outBuf 0 out) s.draws := rfl

/-- A completion with an error is the error entry. -/
theorem State.complete_err (s : State) (lim : Nat) (c : ErrCode) : s.complete lim (.err c) = s.raiseError c := rfl

@[simp] theorem drawBytes_length (d n : Nat) : (drawBytes d n).length = n := by simp [drawBytes]

theorem ErrCode.bits_le (c : ErrCode) : c.bits.toNat ≤ 4 := by cases c <;> decide

/-- Every completion, whatever its result, is one `finish`: its code, its length and the bytes it writes from index 0 on. -/
theorem State.complete_eq_finish (s : State) (lim : Nat) (r : Result) :
    ∃ (c : ErrCode) (len : Nat) (bytes : List Byte) (d : Nat),
      s.complete lim r = s.finish c len (Cells.writeList s.outBuf 0 bytes) d ∧
      (c ≠ .none → len = 0) ∧
      match r with
      | .ok out => c = .none ∧ len = out.length ∧ bytes = out ∧ d = s.draws
      | .err e => c = e ∧ len = 0 ∧ bytes = [] ∧ d = s.draws
      | .unspec => (c = .none ∨ c = .bufferTooSmall) ∧ len ≤ lim ∧ bytes.length = lim := by
  cases r with
  | ok out => exact ⟨.none, out.length, out, s.draws, rfl, by simp, rfl, rfl, rfl, rfl⟩
  | err e => exact ⟨e, 0, [], s.draws, rfl, by simp, rfl, rfl, rfl, rfl⟩
  | unspec =>
    refine ⟨_, _, _, _, rfl, ?_, ?_, ?_, drawBytes_length _ _⟩
    · split <;> simp
    · split <;> simp
    · split
      · exact Nat.zero_le _
      · exact Nat.lt_succ_iff.mp (Nat.mod_lt _ (Nat.succ_pos lim))

/-! ## Host reads -/

/-- What a host read can answer: the same state, or, for a byte of OUT_BUF while BUSY = 1, one more draw made. -/
theorem State.memRead_ok (s t : State) (a : Offset) (n : Size) (v : Word) (h : s.memRead a n = .ok (v, t)) :
    t = s ∨ (s.busy = true ∧ (∃ i, s.target a n = .outByte i) ∧ t = { s with draws := s.draws + 1 }) := by
  unfold State.memRead at h
  split at h
  · simp only [Except.ok.injEq, Prod.mk.injEq] at h; exact .inl h.2.symm
  · unfold State.readIn at h
    split at h
    · simp at h
    · simp only [Except.ok.injEq, Prod.mk.injEq] at h; exact .inl h.2.symm
  · rename_i i hi
    unfold State.readOut at h
    split at h
    · rename_i hb
      simp only [Except.ok.injEq, Prod.mk.injEq] at h
      exact .inr ⟨hb, ⟨i, hi⟩, h.2.symm⟩
    · split at h
      · simp at h
      · simp only [Except.ok.injEq, Prod.mk.injEq] at h; exact .inl h.2.symm
  · simp only [Except.ok.injEq, Prod.mk.injEq] at h; exact .inl h.2.symm

/-! ## Host writes -/

/-- What a host write can do: nothing; accept a command; or, while BUSY = 0, store IN_LEN, OUT_LIMIT, or one byte of
IN_BUF or OUT_BUF below its capacity. -/
theorem State.memWrite_cases (s : State) (a : Offset) (n : Size) (v : Word) :
    s.memWrite a n v = s ∨
    (s.busy = false ∧ a = 0x00#22 ∧ n = .four ∧ s.memWrite a n v = s.commandWrite v) ∨
    (s.busy = false ∧ s.memWrite a n v = { s with inLen := v }) ∨
    (s.busy = false ∧ s.memWrite a n v = { s with outLimit := v }) ∨
    (s.busy = false ∧ ∃ i, i < s.inCap ∧ s.memWrite a n v = { s with inBuf := Cells.write s.inBuf i (v.setWidth 8) }) ∨
    (s.busy = false ∧ ∃ i, i < s.outCap ∧
      s.memWrite a n v = { s with outBuf := Cells.write s.outBuf i (v.setWidth 8) }) := by
  cases hb : s.busy with
  | true =>
    left
    unfold State.memWrite
    split
    · rename_i r _
      cases r <;> simp [State.regWrite, State.commandWrite, hb]
    · simp [State.writeIn, hb]
    · simp [State.writeOut, hb]
    · rfl
  | false =>
    cases n with
    | two => left; rfl
    | four =>
      by_cases h : a.toNat % 4 = 0 ∧ a.toNat ≤ 0x0000FC
      · have ht : s.memWrite a .four v = s.regWrite (regOf a) v := by
          simp [State.memWrite, State.target, h]
        rw [ht]
        by_cases h0 : a = 0x00#22
        · right; left; subst h0; exact ⟨rfl, rfl, rfl, rfl⟩
        · by_cases h8 : a = 0x08#22
          · right; right; left; subst h8; exact ⟨rfl, by simp [regOf, State.regWrite, hb]⟩
          · by_cases hC : a = 0x0C#22
            · right; right; right; left; subst hC; exact ⟨rfl, by simp [regOf, State.regWrite, hb]⟩
            · left
              unfold regOf
              simp only [h0, h8, hC, if_false]
              repeat' split
              all_goals rfl
      · left; simp [State.memWrite, State.target, h]
    | one =>
      by_cases hi : inBase ≤ a.toNat ∧ a.toNat < inBase + s.inCap
      · right; right; right; right; left
        refine ⟨rfl, a.toNat - inBase, by omega, ?_⟩
        simp [State.memWrite, State.target, hi, State.writeIn, hb]
      · by_cases ho : outBase ≤ a.toNat ∧ a.toNat < outBase + s.outCap
        · right; right; right; right; right
          refine ⟨rfl, a.toNat - outBase, by omega, ?_⟩
          simp [State.memWrite, State.target, hi, ho, State.writeOut, hb]
        · left; simp [State.memWrite, State.target, hi, ho]

/-! ## The operands of a command -/

/-- What the shared part of the two legal commands can answer as a next state: BadLength, or what the command does with
the input window. -/
theorem withInput_next (s t : State) (k : Pend → List Byte → Host.Outcome State Fault Refusal)
    (h : withInput s k = .next t) :
    ∃ p, s.pend = some p ∧
      ((s.lengthsOk p = false ∧ t = s.raiseError .badLength) ∨
       (s.lengthsOk p = true ∧ ∃ src, Cells.readRange s.inBuf 0 p.n.toNat = .ok src ∧ k p src = .next t)) := by
  unfold withInput at h
  split at h
  · simp at h
  · rename_i p hp
    refine ⟨p, hp, ?_⟩
    split at h
    · rename_i hl
      split at h
      · simp at h
      · rename_i src hsrc
        exact .inr ⟨hl, src, hsrc, h⟩
    · rename_i hl
      simp only [Host.Outcome.next.injEq] at h
      exact .inl ⟨by simpa using hl, h.symm⟩

/-- A command in flight runs on its input window. -/
theorem InFlight.withInput_eq {s : State} {p : Pend} {src : List Byte} (h : InFlight s p src)
    (k : Pend → List Byte → Host.Outcome State Fault Refusal) : withInput s k = k p src := by
  have hl : s.lengthsOk p = true := by simp [State.lengthsOk, h.n_le, h.lim_le]
  have hr : Cells.readRange s.inBuf 0 p.n.toNat = .ok src :=
    (Cells.readRange_eq_ok s.inBuf 0 p.n.toNat src).mpr
      ⟨h.length, fun i hi => by rw [Nat.zero_add]; exact h.window i hi⟩
  simp [withInput, h.latched, hl, hr]

end Sys2Proof.Machine
end

