-- ==== Sys2Proof/Laws/Passes.lean ====
section
/-! SUPPORT. The engine's passes: over an open pass they only move the working state, byte by byte. -/

namespace Sys2Proof.Machine

/-! ## The encoder -/

/-- The encoder's pass is a fold of its working state. -/
theorem encodeBytes_eq (bs : List Byte) (s : State) (w : EncoderWork) :
    encodeBytes bs (s.setWork (.encoder w)) = .next (s.setWork (.encoder (bs.foldl EncoderWork.push w))) := by
  induction bs generalizing w with
  | nil => rfl
  | cons b rest ih => exact ih (w.push b)

/-- The encoder's output, as a function of the input. -/
def encodePass (src : List Byte) : List Byte := (src.foldl EncoderWork.push EncoderWork.start).result

/-- COMPRESS on a command in flight: the pass's output under the limit, or the Unspec completion. -/
theorem execCompress_eq {s : State} {p : Pend} {src : List Byte} (h : InFlight s p src) :
    execCompress s = .next (s.complete p.lim.toNat
      (if validInput src then underLimit (encodePass src) p.lim.toNat else .unspec)) := by
  unfold execCompress
  rw [h.withInput_eq]
  split
  · rw [encodeBytes_eq]
    unfold underLimit encodePass
    simp only [andThen, finishEncode, State.setWork_work, underLimit]
    split <;> rfl
  · rfl

/-! ## The decoder -/

/-- The decoder's working state after the byte `b` (30_encoding.md R89). -/
def DecoderWork.push (w : DecoderWork) (b : Byte) : DecoderWork :=
  match w.st with
  | .idle =>
    if highBit b then { st := .pendingValue (low7 b), i := w.i + 1, out := w.out }
    else { st := .idle, i := w.i + 1, out := w.out ++ [valueByte b] }
  | .pendingValue c => { st := .idle, i := w.i + 1, out := w.out ++ List.replicate c.toNat (valueByte b) }

/-- One byte of the decoder's pass. -/
theorem decodeByte_eq (b : Byte) (s : State) (w : DecoderWork) (h : s.work = .decoder w) :
    decodeByte b s = .next (s.setWork (.decoder (w.push b))) := by
  obtain ⟨st, i, out⟩ := w
  cases st with
  | idle => cases hb : highBit b <;>
      simp [decodeByte, withDecoder, h, execMarker, execLiteral, DecoderWork.push, hb, valueByte]
  | pendingValue c => simp [decodeByte, withDecoder, h, execRepeatValue, DecoderWork.push, valueByte]

/-- The decoder's pass is a fold of its working state. -/
theorem decodeBytes_eq (bs : List Byte) (s : State) (w : DecoderWork) :
    decodeBytes bs (s.setWork (.decoder w)) = .next (s.setWork (.decoder (bs.foldl DecoderWork.push w))) := by
  induction bs generalizing w with
  | nil => rfl
  | cons b rest ih =>
    rw [decodeBytes, decodeByte_eq b _ w (by simp)]
    exact ih (w.push b)

/-- The decoder's result, as a function of the input. -/
def decodePass (src : List Byte) (lim : Nat) : Result :=
  (src.foldl DecoderWork.push DecoderWork.start).result lim

/-- DECOMPRESS on a command in flight: the pass's result. -/
theorem execDecompress_eq {s : State} {p : Pend} {src : List Byte} (h : InFlight s p src) :
    execDecompress s = .next (s.complete p.lim.toNat (decodePass src p.lim.toNat)) := by
  unfold execDecompress
  rw [h.withInput_eq, decodeBytes_eq]
  simp only [andThen, finishDecode, withDecoder, State.setWork_work, decodePass]
  cases (List.foldl DecoderWork.push DecoderWork.start src).result p.lim.toNat <;> rfl

end Sys2Proof.Machine
end

