-- ==== Sys2Proof/Laws/Step.lean ====
section
/-! SUPPORT. What a step can do, said once: by the agent whose turn it is. -/

namespace Sys2Proof.Machine

/-! ## Commands -/

/-- A readable input window makes a command in flight. -/
theorem InFlight.of_readRange {s : State} {p : Pend} {src : List Byte} (hp : s.pend = some p)
    (hl : s.lengthsOk p = true) (hr : Cells.readRange s.inBuf 0 p.n.toNat = .ok src) : InFlight s p src := by
  simp only [State.lengthsOk, Bool.and_eq_true, decide_eq_true_eq] at hl
  obtain ⟨h1, h2⟩ := (Cells.readRange_eq_ok s.inBuf 0 p.n.toNat src).mp hr
  exact ⟨hp, hl.1, hl.2, h1, fun i hi => by simpa using h2 i hi⟩

/-- A result that a command may commit: an output, or the draws of Unspec, within the latched limit and OUT_BUF. -/
def Result.fits (r : Result) (lim cap : Nat) : Prop :=
  match r with
  | .ok out => out.length ≤ lim ∧ lim ≤ cap
  | .err c => c ≠ .none
  | .unspec => lim ≤ cap

theorem underLimit_fits (out : List Byte) (lim cap : Nat) (h : lim ≤ cap) : (underLimit out lim).fits lim cap := by
  unfold underLimit
  split
  · simp [Result.fits]
  · exact ⟨by omega, h⟩

/-- What a command can do when it answers a next state: complete, with a result that fits. -/
theorem exec_command_next {i : Instr} {s t : State} (hi : i.standsIn .cmdWrite = true) (h : exec i s = .next t) :
    ∃ p r, s.pend = some p ∧ t = s.complete p.lim.toNat r ∧ r.fits p.lim.toNat s.outCap := by
  cases i with
  | compress =>
    obtain ⟨p, hp, ⟨hl, ht⟩ | ⟨hl, src, hr, hk⟩⟩ := withInput_next s t _ h
    · exact ⟨p, .err .badLength, hp, ht, by simp [Result.fits]⟩
    · have hf := InFlight.of_readRange hp hl hr
      rw [show exec .compress s = execCompress s from rfl, execCompress_eq hf, Host.Outcome.next.injEq] at h
      refine ⟨p, _, hp, h.symm, ?_⟩
      split
      · exact underLimit_fits _ _ _ hf.lim_le
      · exact hf.lim_le
  | decompress =>
    obtain ⟨p, hp, ⟨hl, ht⟩ | ⟨hl, src, hr, hk⟩⟩ := withInput_next s t _ h
    · exact ⟨p, .err .badLength, hp, ht, by simp [Result.fits]⟩
    · have hf := InFlight.of_readRange hp hl hr
      rw [show exec .decompress s = execDecompress s from rfl, execDecompress_eq hf, Host.Outcome.next.injEq] at h
      refine ⟨p, _, hp, h.symm, ?_⟩
      unfold decodePass DecoderWork.result
      split
      · simp [Result.fits]
      · exact underLimit_fits _ _ _ hf.lim_le
  | illegalCmd w =>
    simp only [exec, execIllegalCmd] at h
    split at h
    · simp at h
    · rename_i p hp
      simp only [Host.Outcome.next.injEq] at h
      exact ⟨p, .err .illegalCommand, hp, h.symm, by simp [Result.fits]⟩
  | marker c => simp [Instr.standsIn] at hi
  | literal v => simp [Instr.standsIn] at hi
  | repeatValue x v => simp [Instr.standsIn] at hi

/-- A decoded command word stands in a CMD write. -/
theorem decodeCmd_standsIn (w : Word) : (decodeCmd w).standsIn .cmdWrite = true := by
  unfold decodeCmd
  split
  · rfl
  · split <;> rfl

/-! ## The host -/

/-- What the host's move can do to the block: nothing, one bus write, or one bus read. -/
theorem hostMove_next {s t : State} (h : hostMove s = .next t) :
    ∃ u, (u = s ∨ (∃ a n v, u = s.memWrite a n v) ∨ ∃ a n v, s.memRead a n = .ok (v, u)) ∧
      t = { u with host := t.host, bus := t.bus } := by
  unfold hostMove at h
  split at h
  · simp only [Host.Outcome.next.injEq] at h; exact ⟨s, .inl rfl, by rw [← h]⟩
  · simp only [Host.Outcome.next.injEq] at h; exact ⟨s, .inl rfl, by rw [← h]⟩
  · simp only [Host.Outcome.next.injEq] at h; exact ⟨s, .inl rfl, by rw [← h]; rfl⟩
  · rename_i n a d _
    unfold hostWrite at h
    split at h
    · simp at h
    · rename_i v _
      simp only [Host.Outcome.next.injEq] at h
      exact ⟨s.memWrite a n v, .inr (.inl ⟨a, n, v, rfl⟩), by rw [← h]; rfl⟩
  · rename_i n a x _
    unfold hostRead at h
    split at h
    · simp at h
    · rename_i v u hu
      simp only [Host.Outcome.next.injEq] at h
      exact ⟨u, .inr (.inr ⟨a, n, v, hu⟩), by rw [← h]; rfl⟩
  · unfold hostJnz at h
    split at h
    · simp at h
    · split at h
      · simp only [Host.Outcome.next.injEq] at h; exact ⟨s, .inl rfl, by rw [← h]; rfl⟩
      · split at h
        · simp at h
        · simp only [Host.Outcome.next.injEq] at h; exact ⟨s, .inl rfl, by rw [← h]; rfl⟩

/-! ## The step -/

/-- The engine's step on a latched command, with no pass open, is the meaning of its word. -/
theorem engineStep_command {s : State} {p : Pend} (hw : s.work = .none) (hp : s.pend = some p) :
    engineStep s = exec (decodeCmd p.op) s := by
  simp [engineStep, engineFetch, hp, hw]

/-- What a step can do when no pass is open: the host's move, the completion of the latched command, an engine's turn
with nothing latched, or a reset. -/
theorem step_next {s t : State} (hw : s.work = .none) (h : step s = .next t) :
    (s.turn = .host ∧ hostMove s.turnTaken = .next t) ∨
    (s.turn = .engine ∧ ∃ p, s.pend = some p ∧ exec (decodeCmd p.op) s.turnTaken = .next t) ∨
    (s.turn = .engine ∧ s.pend = none ∧ t = s.turnTaken) ∨
    (s.turn = .reset ∧ t = s.turnTaken.resetBlock) := by
  simp only [step, machineMove, hw] at h
  cases ht : s.turn with
  | host => rw [ht] at h; exact .inl ⟨rfl, h⟩
  | reset =>
    rw [ht] at h
    simp only [agentMove, Host.Outcome.next.injEq] at h
    exact .inr (.inr (.inr ⟨rfl, h.symm⟩))
  | engine =>
    rw [ht] at h
    simp only [agentMove, State.turnTaken_pend] at h
    cases hp : s.pend with
    | none =>
      simp only [hp, Option.isSome_none, Bool.false_eq_true, if_false, Host.Outcome.next.injEq] at h
      exact .inr (.inr (.inl ⟨rfl, rfl, h.symm⟩))
    | some p =>
      simp only [hp, Option.isSome_some, if_true] at h
      rw [engineStep_command (by simpa using hw) (by simpa using hp)] at h
      exact .inr (.inl ⟨rfl, p, rfl, h⟩)

/-! ## Runs -/

@[simp] theorem core_run_zero (s : State) : core.run 0 s = .next s := rfl

/-- A run whose first step answers a next state goes on from there. -/
theorem core_run_next {s t : State} (k : Nat) (h : step s = .next t) : core.run (k + 1) s = core.run k t := by
  simp [Host.Core.run, show core.step s = .next t from h]

/-- A run that answers a next state took its first step. -/
theorem core_run_succ_next {s t : State} {k : Nat} (h : core.run (k + 1) s = .next t) :
    ∃ u, step s = .next u ∧ core.run k u = .next t := by
  cases hs : step s with
  | next u => exact ⟨u, rfl, by rw [← h, core_run_next k hs]⟩
  | fault f => simp [Host.Core.run, show core.step s = .fault f from hs] at h
  | refused r => simp [Host.Core.run, show core.step s = .refused r from hs] at h

end Sys2Proof.Machine
end

