-- ==== Sys2Proof/Laws/Codec.lean ====
section
/-! SUPPORT. The small lemmas of the codec's definitions. -/

namespace Sys2Proof.Machine

/-- A run of at most 127 is one chunk (41_compress.md R142). -/
theorem chunks_short (v : Byte) {l : Nat} (h1 : 1 ≤ l) (h2 : l ≤ 127) : chunks v l = [(v, l)] := by
  unfold chunks maxChunk
  by_cases h : l = 127
  · subst h; rfl
  · have h3 : l / 127 = 0 := by omega
    have h4 : l % 127 = l := by omega
    have h5 : 0 < l := by omega
    simp [h3, h4, h5]

/-- A longer run begins with a chunk of 127 (41_compress.md R142). -/
theorem chunks_long (v : Byte) (l : Nat) : chunks v (127 + l) = (v, 127) :: chunks v l := by
  unfold chunks maxChunk
  have h3 : (127 + l) / 127 = l / 127 + 1 := by omega
  have h4 : (127 + l) % 127 = l % 127 := by omega
  simp [h3, h4, List.replicate_succ]

/-- Puts a run before a list of runs, joining it with the first when their values are equal. -/
def joinRun (v : Byte) (l : Nat) (rs : List (Byte × Nat)) : List (Byte × Nat) :=
  match rs with
  | [] => [(v, l)]
  | (u, k) :: more => if u = v then (v, l + k) :: more else (v, l) :: (u, k) :: more

/-- One more byte in front joins the first run or begins one. -/
theorem runs_cons (b : Byte) (bs : List Byte) : runs (b :: bs) = joinRun b 1 (runs bs) := by
  rw [runs]
  cases h : runs bs with
  | nil => rfl
  | cons r rs =>
    obtain ⟨v, l⟩ := r
    simp only [joinRun]
    split
    · rename_i hv
      subst hv
      rw [Nat.add_comm]
    · rfl

/-- Joining twice with the same value is joining once. -/
theorem joinRun_joinRun (v : Byte) (l k : Nat) (rs : List (Byte × Nat)) :
    joinRun v l (joinRun v k rs) = joinRun v (l + k) rs := by
  cases rs with
  | nil => simp [joinRun]
  | cons r more =>
    obtain ⟨u, j⟩ := r
    by_cases h : u = v <;> simp [joinRun, h, Nat.add_assoc]

/-- A Value byte has bit 7 clear (30_encoding.md R85). -/
@[simp] theorem highBit_valueByte (b : Byte) : highBit (valueByte b) = false := by revert b; decide

/-- A byte with bit 7 clear is its own Value (42_decompress.md R173). -/
theorem valueByte_of_low (b : Byte) (h : highBit b = false) : valueByte b = b := by revert b; decide

/-- The marker of a chunk of length 2 to 127 has bit 7 set and gives the length back (30_encoding.md R84). -/
theorem markerByte_spec (c : Nat) (h : c ≤ 127) :
    highBit (markerByte c) = true ∧ (low7 (markerByte c)).toNat = c := by
  have key : ∀ k : Fin 128, highBit (markerByte k.1) = true ∧ (low7 (markerByte k.1)).toNat = k.1 := by decide
  exact key ⟨c, by omega⟩

/-- Decoding from Idle, a value byte is a literal (42_decompress.md R173). -/
theorem decodeFrom_literal (b : Byte) (rest : List Byte) (h : highBit b = false) :
    decodeFrom .idle (b :: rest) = (decodeFrom .idle rest).map fun out => b :: out := by
  simp [decodeFrom, h, valueByte_of_low b h]

/-- Decoding from Idle, a marker and the byte after it are one group (42_decompress.md R172, R174). -/
theorem decodeFrom_group (b0 b1 : Byte) (rest : List Byte) (h : highBit b0 = true) :
    decodeFrom .idle (b0 :: b1 :: rest) =
      (decodeFrom .idle rest).map fun out => List.replicate (low7 b0).toNat (valueByte b1) ++ out := by
  simp [decodeFrom, h]

end Sys2Proof.Machine
end

