-- ==== Sys2Proof/Laws/HostProgram.lean ====
section
/-! SUPPORT. What the pseudo-instructions expand to, said once: which expansions exist, and each of their lines with its
offset as a number, so that no offset wraps. -/

namespace Sys2Proof.Machine

@[simp] theorem loadBytes_length (i : Nat) (bs : List Operand) : (loadBytes i bs).length = bs.length := by
  induction bs generalizing i with
  | nil => rfl
  | cons b bs ih => simp [loadBytes, ih]

@[simp] theorem readBytes_length (i y m : Nat) : (readBytes i y m).length = m := by
  induction m generalizing i y with
  | zero => rfl
  | succ m ih => simp [readBytes, ih]

/-- The `k`-th write of `LOADIN` is of its `k`-th byte operand. -/
theorem loadBytes_getElem? (i k : Nat) (bs : List Operand) :
    (loadBytes i bs)[k]? = bs[k]?.map fun b => .wr .one (BitVec.ofNat 22 (0x100000 + (i + k))) b := by
  induction bs generalizing i k with
  | nil => simp [loadBytes]
  | cons b bs ih =>
    cases k with
    | zero => simp [loadBytes]
    | succ k => simp [loadBytes, ih, Nat.add_assoc, Nat.add_comm 1 k]

/-- The `k`-th read of `READOUT` sets its `k`-th variable. -/
theorem readBytes_getElem? (i y m k : Nat) (hk : k < m) :
    (readBytes i y m)[k]? = some (.rd .one (BitVec.ofNat 22 (0x200000 + (i + k))) (y + k)) := by
  induction m generalizing i y k with
  | zero => omega
  | succ m ih =>
    cases k with
    | zero => simp [readBytes]
    | succ k =>
      simp [readBytes, ih (i + 1) (y + 1) k (by omega), Nat.add_assoc, Nat.add_comm 1 k]

/-- `LOADIN` expands exactly when the host can name every offset it writes (20_memory.md R50, log entry 9). -/
theorem expand_loadIn_isSome (bs : List Operand) : (Pseudo.loadIn bs).expand.isSome = decide (bs.length ≤ loadMax) := by
  by_cases h : bs.length ≤ loadMax <;> simp [Pseudo.expand, h]

/-- `READOUT` expands exactly when the host can name every offset it reads (20_memory.md R50, log entry 9). -/
theorem expand_readOut_isSome (m y : Nat) : (Pseudo.readOut m y).expand.isSome = decide (m ≤ readMax) := by
  by_cases h : m ≤ readMax <;> simp [Pseudo.expand, h]

/-- An expanded `LOADIN` (30_encoding.md R93): one byte write for each operand, at offset `0x100000 + k` as a number, and
then IN_LEN as a number. -/
theorem expand_loadIn {bs : List Operand} {ls : List Line} (h : (Pseudo.loadIn bs).expand = some ls) :
    ls.length = bs.length + 1 ∧
    (∀ k b, bs[k]? = some b → ∃ a : Offset, ls[k]? = some (.wr .one a b) ∧ a.toNat = 0x100000 + k) ∧
    ∃ n : Word, ls[bs.length]? = some (.wr .four 0x000008#22 (.num n)) ∧ n.toNat = bs.length := by
  simp only [Pseudo.expand, Option.ite_none_right_eq_some, Option.some.injEq] at h
  obtain ⟨hl, rfl⟩ := h
  change bs.length ≤ 0x300000 at hl
  refine ⟨by simp, fun k b hb => ?_, BitVec.ofNat 32 bs.length, by simp, ?_⟩
  · have hk : k < bs.length := (List.getElem?_eq_some_iff.mp hb).1
    refine ⟨BitVec.ofNat 22 (0x100000 + (0 + k)), ?_, ?_⟩
    · rw [List.getElem?_append_left (by simpa using hk), loadBytes_getElem?, hb]
      rfl
    · rw [BitVec.toNat_ofNat]
      omega
  · rw [BitVec.toNat_ofNat]
    omega

/-- An expanded `READOUT` (30_encoding.md R93): `m` byte reads, at offset `0x200000 + k` as a number. -/
theorem expand_readOut {m y : Nat} {ls : List Line} (h : (Pseudo.readOut m y).expand = some ls) :
    ls.length = m ∧
    ∀ k, k < m → ∃ a : Offset, ls[k]? = some (.rd .one a (y + k)) ∧ a.toNat = 0x200000 + k := by
  simp only [Pseudo.expand, Option.ite_none_right_eq_some, Option.some.injEq] at h
  obtain ⟨hm, rfl⟩ := h
  change m ≤ 0x200000 at hm
  refine ⟨by simp, fun k hk => ⟨_, readBytes_getElem? 0 y m k hk, ?_⟩⟩
  rw [BitVec.toNat_ofNat]
  omega

end Sys2Proof.Machine
end

