-- ==== Sys2Proof/Laws/PerInstr.lean ====
section
/-! SUPPORT. The laws made per instruction. -/

namespace Sys2Proof.Laws

/-- Family `Format`: wherever the instruction can stand, its unit of code is not rejected there. -/
def Format.Statement (i : Instr) : Prop :=
  ∀ c : Context, i.standsIn c = true → ∃ j, decode c (encode i) = .ok j

theorem Format.compress : Format.Statement .compress := by
  rintro (_ | _) h
  · exact ⟨_, rfl⟩
  · simp [Instr.standsIn] at h

theorem Format.decompress : Format.Statement .decompress := by
  rintro (_ | _) h
  · exact ⟨_, rfl⟩
  · simp [Instr.standsIn] at h

theorem Format.illegalCmd (w : Word) : Format.Statement (.illegalCmd w) := by
  rintro (_ | _) h
  · exact ⟨_, rfl⟩
  · simp [Instr.standsIn] at h

theorem Format.marker (c : Value) : Format.Statement (.marker c) := by
  rintro (_ | _) h
  · simp [Instr.standsIn] at h
  · exact ⟨_, rfl⟩

theorem Format.literal (v : Value) : Format.Statement (.literal v) := by
  rintro (_ | _) h
  · simp [Instr.standsIn] at h
  · exact ⟨_, rfl⟩

theorem Format.repeatValue (x : BitVec 1) (v : Value) : Format.Statement (.repeatValue x v) := by
  rintro (_ | _) h
  · simp [Instr.standsIn] at h
  · exact ⟨_, rfl⟩

end Sys2Proof.Laws
end

