-- ==== Sys2Proof/Tests/Slice0.lean ====
section
/-! SUPPORT. Tests. Expected results are the vectors of spec/95_test_vectors.md, named by their row (C8, D9, E8, M10, …),
or are read off the encodings of spec/opcode_table.json; and for each statement with hypotheses, a witness that meets
them. -/

namespace Sys2Proof.Machine.Tests

/-! ## Helpers -/

/-- What `f` sees of the next state, if there is one. -/
def after {α : Type} (o : Host.Outcome State Fault Refusal) (f : State → α) : Option α :=
  match o with
  | .next t => some (f t)
  | .fault _ => none
  | .refused _ => none

/-- An idle instance with capacities of 16 (the start state of 95_test_vectors.md). -/
def idle : State := State.resetOf 16 16

/-- The latch of a command. -/
def latch (op : Word) (n lim : Nat) : Pend := { op := op, n := BitVec.ofNat 32 n, lim := BitVec.ofNat 32 lim }

/-- The command `op` in flight on the input `src` with the limit `lim`, on capacities `cap`, the engine to move;
`OUT_BUF[0 .. 4)` holds AA, BB, CC, DD as in vector E13. -/
def flight (cap : Nat) (op : Word) (src : List Byte) (lim : Nat) : State :=
  { State.resetOf cap cap with
    busy := true
    inLen := BitVec.ofNat 32 src.length
    outLimit := BitVec.ofNat 32 lim
    inBuf := Cells.writeList [] 0 src
    outBuf := [(0, 0xAA), (1, 0xBB), (2, 0xCC), (3, 0xDD)]
    pend := some (latch op src.length lim)
    sched := [.engine] }

/-- A decoder open in state `d` on the input `src`, at its first byte. -/
def decoding (d : DState) (src : List Byte) : State :=
  (flight 16 2 src 16).setWork (.decoder { st := d, i := 0, out := [] })

/-- A host program on an idle instance. -/
def hosted (prog : List Line) : State := { idle with host := { prog := prog, line := 0, vars := [(7, 0x22)] } }

/-- What a completion shows: STATUS, OUT_LEN and OUT_BUF. -/
def shown (t : State) : Word × Word × Memory := (t.statusWord, t.outLen, t.outBuf)

/-! ## WellFormed: each check refuses an ill-formed term -/

theorem test_illegalCmd_is_not_compress : (Instr.illegalCmd 0x00000001#32).wellFormed = false := by decide
theorem test_illegalCmd_is_not_decompress : (Instr.illegalCmd 0x00000002#32).wellFormed = false := by decide
theorem test_illegalCmd_zero_wellFormed : (Instr.illegalCmd 0x00000000#32).wellFormed = true := by decide

/-! ## Decoding: words written out from the table's "encoding" column -/

theorem test_decode_compress :
    decodeTableWord 32 0b00000000000000000000000000000001 = some .compress := by decide
theorem test_decode_decompress :
    decodeTableWord 32 0b00000000000000000000000000000010 = some .decompress := by decide
/-- vector E4: bits 31:8 are not zero -/
theorem test_decode_illegal :
    decodeTableWord 32 0b00000000000000000000000100000001 = some (.illegalCmd 0x00000101#32) := by decide
/-- 30_encoding.md R84: 0x83 is the marker of length 3 -/
theorem test_decode_marker : decodeTableWord 8 0b10000011 = some (.marker 3#7) := by decide
theorem test_decode_literal : decodeTableWord 8 0b00000101 = some (.literal 5#7) := by decide
/-- vector D5: 0x85 after a marker is the Value 5, bit 7 stripped -/
theorem test_decode_repeatValue :
    decode (.stream (.pendingValue 2#7)) (.stream8 0b10000101#8) = .ok (.repeatValue 1#1 5#7) := by rfl
/-- the same byte in Idle is a marker -/
theorem test_decode_context : decode (.stream .idle) (.stream8 0b10000101#8) = .ok (.marker 5#7) := by rfl
theorem test_decode_rejects_length : decodeTableWord 16 0 = none := by decide

/-! ## The instructions -/

/-- vector C8: a run of 128 is a chunk of 127 and a literal; OUT_BUF from 3 on is left over -/
theorem test_compress_C8 :
    after (exec .compress (flight 200 1 (List.replicate 128 5) 200)) shown =
      some (0x2#32, 3#32, [(0, 0xFF), (1, 0x05), (2, 0x05), (3, 0xDD)]) := by decide +kernel
/-- vector C20: BufferTooSmall, OUT_BUF unchanged -/
theorem test_compress_C20 :
    after (exec .compress (flight 16 1 [3, 3, 3] 1)) shown =
      some (0x22#32, 0#32, [(0, 0xAA), (1, 0xBB), (2, 0xCC), (3, 0xDD)]) := by decide
/-- vector D9: 0x80 first as a value, then as a marker of count 0 -/
theorem test_decompress_D9 :
    after (exec .decompress (flight 16 2 [0x85, 0x80, 0x80, 0x01] 16)) shown =
      some (0x2#32, 5#32, [(0, 0), (1, 0), (2, 0), (3, 0), (4, 0)]) := by decide
/-- vector D16: Malformed beats BufferTooSmall -/
theorem test_decompress_D16 :
    after (exec .decompress (flight 16 2 [0xFF, 0x01, 0x90] 10)) shown =
      some (0x12#32, 0#32, [(0, 0xAA), (1, 0xBB), (2, 0xCC), (3, 0xDD)]) := by decide
/-- vector E8: IllegalCommand beats BadLength -/
theorem test_illegal_E8 :
    after (step { flight 16 7 [] 16 with inLen := 17, pend := some (latch 7 17 16) }) shown =
      some (0x32#32, 0#32, [(0, 0xAA), (1, 0xBB), (2, 0xCC), (3, 0xDD)]) := by decide
/-- vector E6: BadLength -/
theorem test_badLength_E6 :
    after (step { flight 16 2 [] 16 with inLen := 17, pend := some (latch 2 17 16) }) State.statusWord =
      some 0x42#32 := by decide
/-- 42_decompress.md R172's example -/
theorem test_marker :
    after (step (decoding .idle [0x83])) State.work =
      some (.decoder { st := .pendingValue 3, i := 1, out := [] }) := by decide
/-- 42_decompress.md R173's example -/
theorem test_literal :
    after (step (decoding .idle [0x05])) State.work =
      some (.decoder { st := .idle, i := 1, out := [0x05] }) := by decide
/-- 42_decompress.md R174's examples -/
theorem test_repeatValue :
    after (step (decoding (.pendingValue 2) [0x85])) State.work =
      some (.decoder { st := .idle, i := 1, out := [0x05, 0x05] }) := by decide
theorem test_repeatValue_none :
    after (step (decoding (.pendingValue 0) [0x11])) State.work =
      some (.decoder { st := .idle, i := 1, out := [] }) := by decide

/-- the first instruction after reset, placed by `withFetchWord` -/
theorem test_placed_command : after (step (State.reset.withFetchWord 32 1)) State.statusWord = some 0x2#32 := by decide
theorem test_placed_byte :
    after (step (State.reset.withFetchWord 8 0x83)) State.work =
      some (.decoder { st := .pendingValue 3, i := 1, out := [] }) := by decide

/-! ## Host accesses -/

/-- vector E12: acceptance clears ERR, DONE and OUT_LEN -/
theorem test_accept_E12 :
    (({ idle with done := true, err := 2, outLen := 0 } : State).memWrite 0x000000#22 .four 1).statusWord =
      0x1#32 := by decide
/-- vector M10: a 1-byte CMD write accepts nothing -/
theorem test_narrow_M10 : idle.memWrite 0x000000#22 .one 1 = idle := by decide
/-- vectors M13, M15 and M18: wide and unmapped writes are ignored -/
theorem test_wide_M13 : idle.memWrite 0x100000#22 .four 0x55555555 = idle := by decide
theorem test_unmapped_M15 : idle.memWrite 0x100010#22 .one 0x99 = idle := by decide
/-- vectors M4 and M9 -/
theorem test_outLimit_M4 : idle.memRead 0x00000C#22 .four = .ok (0x10#32, idle) := by rfl
theorem test_misaligned_M9 : idle.memRead 0x000006#22 .four = .ok (0#32, idle) := by rfl
/-- vectors E10, E11: writes while busy are ignored -/
theorem test_busy_E10 : (flight 16 1 [1, 2, 3] 16).memWrite 0x000008#22 .four 5 = flight 16 1 [1, 2, 3] 16 := by decide
theorem test_busy_E11 : (flight 16 1 [1] 16).memWrite 0x100000#22 .one 0x44 = flight 16 1 [1] 16 := by decide
/-- vector E15: reset while busy -/
theorem test_reset_E15 :
    after (step { flight 16 2 [0x82] 16 with sched := [.reset] }) (fun t => (t.statusWord, t.inBuf.length, t.outBuf.length)) =
      some (0x0#32, 0, 0) := by decide
/-- 30_encoding.md R93: `RUN op`, with a host variable as `op` (R91) -/
theorem test_pseudo_run :
    (Pseudo.run (.var 3) 9 0).expand =
      some [.wr .four 0x000000#22 (.var 3), .label 9, .rd .four 0x000004#22 0, .jnz 0 1 9] := by decide
/-- 30_encoding.md R93: `LOADIN`, line 1 as in program P1, and a byte from a host variable (R91) -/
theorem test_pseudo_loadIn :
    (Pseudo.loadIn [.num 0x05, .var 4]).expand =
      some [.wr .one 0x100000#22 (.num 0x05), .wr .one 0x100001#22 (.var 4), .wr .four 0x000008#22 (.num 2)] := by
  decide
/-- 20_memory.md R50: a `READOUT` of one byte past the top offset names no offset -/
theorem test_pseudo_readOut_bound : (Pseudo.readOut 0x200001 0).expand = none := by decide
/-- program P3, line 8: the branch is taken, `0x22 & 0xF0 = 0x20` -/
theorem test_jnz_P3 :
    after (step (hosted [.jnz 7 0xF0 5, .halt, .label 5])) (fun t => t.host.line) = some 2 := by decide

/-! ## Witnesses: for each statement with hypotheses, a state and operands that meet them -/

theorem flight_inFlight (cap : Nat) (op : Word) (src : List Byte) (lim : Nat)
    (hl : (flight cap op src lim).lengthsOk (latch op src.length lim) = true)
    (hr : Cells.readRange (flight cap op src lim).inBuf 0 (latch op src.length lim).n.toNat = .ok src) :
    InFlight (flight cap op src lim) (latch op src.length lim) src :=
  InFlight.of_readRange rfl hl hr

theorem idle_inv : Inv idle := by
  refine ⟨by decide, by decide, by decide, by decide, by decide, by decide, by decide, by decide, ?_, by decide, by decide,
    by decide, by decide, by decide, by decide, by decide, rfl⟩
  intro p h
  simp [idle, State.resetOf] at h

theorem flight_inv : Inv (flight 16 1 [5, 5] 16) := by
  refine ⟨by decide, by decide, by decide, by decide, by decide, by decide, by decide, by decide, ?_, by decide, by decide,
    by decide, by decide, by decide, by decide, by decide, rfl⟩
  rintro p ⟨⟩
  exact ⟨rfl, rfl⟩

/-- A completed command with one byte of output. -/
def completed : State := { idle with done := true, outLen := 1, outBuf := [(0, 0x05)] }

theorem completed_inv : Inv completed := by
  refine ⟨by decide, by decide, by decide, by decide, by decide, by decide, by decide, by decide, ?_, by decide, by decide,
    by decide, by decide, by decide, by decide, by decide, rfl⟩
  intro p h
  simp [completed, idle, State.resetOf] at h

theorem witness_EncodeThenDecode :
    (Instr.illegalCmd 0x101#32).wellFormed = true ∧ (Instr.illegalCmd 0x101#32).standsIn .cmdWrite = true := by decide
theorem witness_DecodeThenEncode :
    decode (.stream .idle) (.stream8 0xFF#8) = .ok (.marker 127#7) ∧
    decode .cmdWrite (.cmd32 0xFFFFFFFF#32) = .ok (.illegalCmd 0xFFFFFFFF#32) := ⟨rfl, rfl⟩
theorem witness_CommandWordMap :
    (0x00000003#32 : Word) ≠ 1#32 ∧ (0x00000003#32 : Word) ≠ 2#32 ∧
    (0x00000100#32 : Word).extractLsb' 8 24 ≠ 0 ∧ (0x80000001#32 : Word).extractLsb' 8 24 ≠ 0 := by decide
theorem witness_StreamTokenTable :
    128 ≤ (0x80#8 : Byte).toNat ∧ 128 ≤ (0xFF#8 : Byte).toNat ∧ (0x7F#8 : Byte).toNat < 128 ∧
    (0x00#8 : Byte).toNat < 128 := by decide
theorem witness_ResetStep :
    ({ flight 16 1 [5] 16 with sched := [.reset] } : State).work = .none ∧
    ({ flight 16 1 [5] 16 with sched := [.reset] } : State).turn = .reset := by decide
theorem witness_ResetHasInvariant : 1 ≤ (1 : Nat) ∧ 1 ≤ Config.capMax ∧ Config.capMax ≤ Config.capMax := by decide
theorem witness_StepKeepsInvariant :
    Inv (flight 16 1 [5, 5] 16) ∧ (after (step (flight 16 1 [5, 5] 16)) State.statusWord) = some 0x2#32 :=
  ⟨flight_inv, by decide⟩
theorem witness_StepRunsLatchedCommand :
    (flight 16 1 [5, 5] 2).work = .none ∧ (flight 16 1 [5, 5] 2).turn = .engine ∧
    (flight 16 1 [5, 5] 2).pend = some (latch 1 2 2) ∧
    decode .cmdWrite (.cmd32 (latch 1 2 2).op) = .ok .compress := ⟨rfl, rfl, rfl, rfl⟩
theorem witness_StepRunsStreamToken :
    (decoding .idle [0x83]).work = .decoder { st := .idle, i := 0, out := [] } ∧
    (decoding .idle [0x83]).pend = some (latch 2 1 16) ∧ 0 < (latch 2 1 16).n.toNat ∧
    Cells.read (decoding .idle [0x83]).inBuf 0 = some 0x83#8 ∧
    decode (.stream .idle) (.stream8 0x83#8) = .ok (.marker 3#7) := ⟨rfl, rfl, by decide, by decide, rfl⟩
theorem witness_StepRunsPlacedWord :
    decodeTableWord 32 0xFFFFFFFF = some (.illegalCmd 0xFFFFFFFF#32) ∧ decodeTableWord 8 0xFF = some (.marker 127#7) := by
  decide
theorem witness_HostWriteLine :
    (hosted [.wr .four 0x000000#22 (.var 7)]).work = .none ∧ (hosted [.wr .four 0x000000#22 (.var 7)]).turn = .host ∧
    (hosted [.wr .four 0x000000#22 (.var 7)]).host.prog[0]? = some (.wr .four 0x000000#22 (.var 7)) ∧
    (hosted [.wr .four 0x000000#22 (.var 7)]).host.value (.var 7) = .ok 0x22 := ⟨rfl, rfl, rfl, rfl⟩
theorem witness_HostReadLine :
    (hosted [.rd .four 0x00000C#22 1]).host.prog[0]? = some (.rd .four 0x00000C#22 1) ∧
    (hosted [.rd .four 0x00000C#22 1]).turn = .host ∧
    State.memRead { hosted [.rd .four 0x00000C#22 1] with sched := [] } 0x00000C#22 .four =
      .ok (16, hosted [.rd .four 0x00000C#22 1]) ∧
    State.memRead { hosted [.rd .one 0x200000#22 1] with sched := [] } 0x200000#22 .one =
      .error (.unwrittenOutput 0) := ⟨rfl, rfl, rfl, rfl⟩
theorem witness_NoCommandNoStep :
    ({ idle with sched := [.engine] } : State).pend = none ∧ ({ idle with sched := [.engine] } : State).work = .none ∧
    ({ idle with sched := [.engine] } : State).turn = .engine := by decide
theorem witness_AcceptanceLatches : idle.busy = false := by decide
theorem witness_BusyCommandWriteIgnored :
    let s : State := { flight 16 1 [5] 16 with
      sched := [.host], host := { prog := [.wr .four 0x000000#22 (.num 2)], line := 0, vars := [] } }
    s.busy = true ∧ s.work = .none ∧ s.turn = .host ∧ after (step s) State.statusWord = some 0x1#32 := by decide
theorem witness_LengthRegisters : idle.busy = false ∧ (flight 16 1 [5] 16).busy = true := by decide
theorem witness_ReadOnlyRegisters :
    (0x1C ≤ (0x1C#22 : Offset).toNat ∧ (0xFC#22 : Offset).toNat ≤ 0xFC) ∧ 0x10 ≤ (0x10#22 : Offset).toNat := by decide
theorem witness_RegisterWindowAccess :
    ((0xFC#22 : Offset).toNat ≤ 0xFF ∧ (0xFC#22 : Offset).toNat % 4 = 0) ∧
    ((0xFF#22 : Offset).toNat ≤ 0xFF ∧ ¬(0xFF#22 : Offset).toNat % 4 = 0) := by decide
theorem witness_BufferWindowsAnswerBytes :
    idle.inCap ≤ Config.capMax ∧ idle.outCap ≤ Config.capMax ∧
    (0x100000 ≤ (0x100000#22 : Offset).toNat ∧ (0x10000F#22 : Offset).toNat < 0x100000 + idle.inCap) ∧
    (0x200000 ≤ (0x200000#22 : Offset).toNat ∧ (0x20000F#22 : Offset).toNat < 0x200000 + idle.outCap) := by decide
theorem witness_UnmappedOffsets :
    (0x100 ≤ (0x000100#22 : Offset).toNat ∧ (0x0FFFFF#22 : Offset).toNat < 0x100000) ∧
    (0x100000 + idle.inCap ≤ (0x100010#22 : Offset).toNat ∧ (0x1FFFFF#22 : Offset).toNat < 0x200000) ∧
    0x200000 + idle.outCap ≤ (0x200010#22 : Offset).toNat ∧ 0x200000 + idle.outCap ≤ (0x3FFFFF#22 : Offset).toNat := by
  decide
theorem witness_InputBufferBytes :
    idle.inCap ≤ Config.capMax ∧ 15 < idle.inCap ∧ idle.busy = false ∧ (flight 16 1 [5] 16).busy = true ∧
    Cells.read (flight 16 1 [5] 16).inBuf 0 = some 5 := by decide
theorem witness_OutputBufferBytes :
    idle.outCap ≤ Config.capMax ∧ 15 < idle.outCap ∧ (flight 16 1 [5] 16).busy = true ∧ completed.busy = false ∧
    Cells.read completed.outBuf 0 = some 5 := by decide
theorem witness_UnwrittenBytesFault :
    (15 < idle.inCap ∧ Cells.read idle.inBuf 15 = none ∧ 15 < idle.outCap ∧ idle.busy = false ∧
      Cells.read idle.outBuf 15 = none) ∧
    (let s : State := { flight 16 1 [5] 16 with pend := some (latch 1 3 16) }
     s.pend = some (latch 1 3 16) ∧ 1 < (latch 1 3 16).n.toNat ∧ Cells.read s.inBuf 1 = none ∧
      ∀ j, j < 1 → (Cells.read s.inBuf j).isSome = true) := by decide
theorem witness_HostReadsChangeNothing :
    idle.memRead 0x000004#22 .four = .ok (0, idle) ∧ idle.busy = false ∧ (0x000004#22 : Offset).toNat < 0x200000 :=
  ⟨rfl, rfl, by decide⟩
theorem witness_HostWritesLeaveStatus :
    ¬((0x000004#22 : Offset) = 0x000000#22 ∧ Size.four = .four ∧ idle.busy = false) := by decide
theorem witness_CompressCommitsEncoding :
    InFlight (flight 16 1 [5, 5] 2) (latch 1 2 2) [5, 5] ∧ validInput [5, 5] = true ∧
    (rleEncode [5, 5]).length ≤ (latch 1 2 2).lim.toNat := ⟨flight_inFlight _ _ _ _ rfl rfl, by decide, by decide⟩
theorem witness_CompressOutOfRange :
    InFlight (flight 16 1 [5, 0x80] 4) (latch 1 2 4) [5, 0x80] ∧ validInput [5, 0x80] = false ∧
    0 < (latch 1 2 4).lim.toNat := ⟨flight_inFlight _ _ _ _ rfl rfl, by decide, by decide⟩
theorem witness_DecompressCommitsDecoding :
    InFlight (flight 16 2 [0x82, 5] 2) (latch 2 2 2) [0x82, 5] ∧ rleDecode [0x82, 5] = some [5, 5] :=
  ⟨flight_inFlight _ _ _ _ rfl rfl, by decide⟩
theorem witness_MalformedEncodingExactly :
    (InFlight (flight 16 2 [0x80] 16) (latch 2 1 16) [0x80] ∧ rleDecode [0x80] = none) ∧
    after (exec .compress (flight 16 1 [5] 16)) State.err = some 0 :=
  ⟨⟨flight_inFlight _ _ _ _ rfl rfl, by decide⟩, by decide⟩
theorem witness_BufferTooSmallExactly :
    (InFlight (flight 16 1 [5] 0) (latch 1 1 0) [5] ∧ validInput [5] = true ∧
      (latch 1 1 0).lim.toNat < (rleEncode [5]).length) ∧
    (InFlight (flight 16 1 [5] 1) (latch 1 1 1) [5] ∧ (latch 1 1 1).n.toNat ≤ (latch 1 1 1).lim.toNat) ∧
    (InFlight (flight 16 2 [0x83, 1] 2) (latch 2 2 2) [0x83, 1] ∧ rleDecode [0x83, 1] = some [1, 1, 1]) :=
  ⟨⟨flight_inFlight _ _ _ _ rfl rfl, by decide, by decide⟩, ⟨flight_inFlight _ _ _ _ rfl rfl, by decide⟩,
    ⟨flight_inFlight _ _ _ _ rfl rfl, by decide⟩⟩
theorem witness_DecompressIsItsTokens : InFlight (flight 16 2 [0x82, 5, 0x83] 16) (latch 2 3 16) [0x82, 5, 0x83] :=
  flight_inFlight _ _ _ _ rfl rfl
theorem witness_BadLengthCompletes :
    (idle.inCap < (latch 1 17 16).n.toNat ∧ ({ idle with pend := some (latch 1 17 16) } : State).pend = some (latch 1 17 16)) ∧
    idle.outCap < (latch 1 0 17).lim.toNat := by decide
theorem witness_IllegalCommandCompletes :
    (flight 16 0 [] 16).pend = some (latch 0 0 16) ∧ idle.busy = false ∧ (0#32 : Word) ≠ 1#32 ∧ (0#32 : Word) ≠ 2#32 := by
  decide
theorem witness_CompletionFrame :
    Instr.compress.standsIn .cmdWrite = true ∧ (flight 16 1 [5, 0x80] 2).pend = some (latch 1 2 2) ∧
    (after (exec .compress (flight 16 1 [5, 0x80] 2)) State.done) = some true ∧
    (after (exec .decompress (flight 16 2 [5, 0x80] 2)) State.done) = some true ∧
    (after (exec (.illegalCmd 9) (flight 16 9 [] 2)) State.done) = some true := ⟨rfl, rfl, rfl, rfl, rfl⟩
theorem witness_ResultDependsOnOperands :
    InFlight (flight 16 2 [0x82, 5] 4) (latch 2 2 4) [0x82, 5] ∧
    InFlight { flight 16 2 [0x82, 5] 4 with outBuf := [], done := true } (latch 2 2 4) [0x82, 5] ∧
    validInput [5, 5] = true :=
  ⟨flight_inFlight _ _ _ _ rfl rfl, InFlight.of_readRange rfl rfl rfl, by decide⟩
theorem witness_EngineTurnCompletes :
    (flight 16 1 [5, 5] 2).work = .none ∧ (flight 16 1 [5, 5] 2).turn = .engine ∧
    (flight 16 1 [5, 5] 2).pend = some (latch 1 2 2) ∧
    ∀ i, i < (latch 1 2 2).n.toNat → (latch 1 2 2).n.toNat ≤ (flight 16 1 [5, 5] 2).inCap →
      (Cells.read (flight 16 1 [5, 5] 2).inBuf i).isSome = true := by decide
theorem witness_AcceptedCommandCompletes :
    Inv (flight 16 1 [5, 5] 16) ∧ (flight 16 1 [5, 5] 16).pend = some (latch 1 2 16) ∧
    Agent.reset ∉ (flight 16 1 [5, 5] 16).sched ∧
    after (core.run 2 (flight 16 1 [5, 5] 16)) State.done = some true := ⟨flight_inv, rfl, by decide, by decide⟩
theorem witness_ReadsWhileBusy : Inv (flight 16 1 [5, 5] 16) ∧ (flight 16 1 [5, 5] 16).busy = true := ⟨flight_inv, rfl⟩
theorem witness_ResultReadable : Inv completed ∧ completed.busy = false ∧ 0 < completed.outLen.toNat :=
  ⟨completed_inv, rfl, by decide⟩
theorem witness_MarkerTransition :
    (decoding .idle [0x80]).work = .decoder { st := .idle, i := 0, out := [] } ∧ (0x80#8 : Byte).getLsbD 7 = true ∧
    (0xFF#8 : Byte).getLsbD 7 = true := by decide
theorem witness_LiteralTransition :
    (decoding .idle [0x7F]).work = .decoder { st := .idle, i := 0, out := [] } ∧ (0x00#8 : Byte).getLsbD 7 = false ∧
    (0x7F#8 : Byte).getLsbD 7 = false := by decide
theorem witness_RepeatValueTransition :
    (decoding (.pendingValue 127) [0xFF]).work = .decoder { st := .pendingValue 127, i := 0, out := [] } := by decide
theorem witness_TokenFrame :
    (Instr.marker 3).standsIn (.stream .idle) = true ∧ (Instr.literal 3).standsIn (.stream .idle) = true ∧
    (Instr.repeatValue 1 3).standsIn (.stream (.pendingValue 2)) = true ∧
    (after (exec (.marker 3) (decoding .idle [0x83])) State.busy) = some true ∧
    (after (exec (.literal 3) (decoding .idle [0x03])) State.busy) = some true ∧
    (after (exec (.repeatValue 1 3) (decoding (.pendingValue 2) [0x83])) State.busy) = some true := by decide
theorem witness_TokenOutOfContext :
    (Instr.marker 3).standsIn .cmdWrite = false ∧
    (decoding (.pendingValue 1) [5]).work = .decoder { st := .pendingValue 1, i := 0, out := [] } ∧
    (Instr.marker 3).standsIn (.stream (.pendingValue 1)) = false ∧
    (Instr.repeatValue 0 3).standsIn (.stream .idle) = false := by decide
theorem witness_EndOfStream :
    let s (d : DState) (out : List Byte) : State :=
      (flight 16 2 [5] 1).setWork (.decoder { st := d, i := 1, out := out })
    (s .idle []).pend = some (latch 2 1 1) ∧ (latch 2 1 1).n.toNat ≤ 1 ∧
    (s (.pendingValue 0) []).work = .decoder { st := .pendingValue 0, i := 1, out := [] } ∧
    (latch 2 1 1).lim.toNat < ([5, 5] : List Byte).length ∧ ([5] : List Byte).length ≤ (latch 2 1 1).lim.toNat := by
  decide
theorem witness_RunPartition :
    (∀ r ∈ ([(1, 2), (2, 3), (1, 1)] : List (Byte × Nat)), 1 ≤ r.2) ∧
    (([(1, 2), (2, 3), (1, 1)] : List (Byte × Nat)).flatMap fun r => List.replicate r.2 r.1) = [1, 1, 2, 2, 2, 1] ∧
    runs [1, 1, 2, 2, 2, 1] = [(1, 2), (2, 3), (1, 1)] := by decide
theorem witness_ChunkSplit :
    chunks 5 300 = [(5, 127), (5, 127), (5, 46)] ∧ chunks 5 127 = [(5, 127)] ∧ chunks 5 128 = [(5, 127), (5, 1)] := by
  decide
theorem witness_GreedySplitIsShortest : (∀ c ∈ [64, 64], 1 ≤ c ∧ c ≤ 127) ∧ [64, 64].sum = 128 := by decide
theorem witness_EmittedStreamShape : validInput [5, 5, 1] = true ∧ rleEncode [5, 5, 1] = [0x82, 5, 1] := by decide
theorem witness_DecodingIsByGroups : groups [0x82, 5, 1] = some [.two 0x82 5, .one 1] := by decide
theorem witness_DecodedValuesValid : rleDecode [0x82, 0x85] = some [5, 5] := by decide
theorem witness_DecodedLength : rleDecode [0x82, 0x85, 7] = some [5, 5, 7] := by decide
theorem witness_RoundTrip :
    (InFlight (flight 16 1 [5, 5] 2) (latch 1 2 2) [5, 5] ∧ validInput [5, 5] = true ∧
      (latch 1 2 2).n.toNat ≤ (latch 1 2 2).lim.toNat) ∧
    (InFlight (flight 16 2 [0x82, 5] 2) (latch 2 2 2) [0x82, 5] ∧
      after (exec .compress (flight 16 1 [5, 5] 2)) (fun t => (t.outLen, t.outBuf)) =
        some (2, [(0, 0x82), (1, 5), (2, 0xCC), (3, 0xDD)])) :=
  ⟨⟨flight_inFlight _ _ _ _ rfl rfl, by decide, by decide⟩, flight_inFlight _ _ _ _ rfl rfl, by decide⟩
theorem witness_EncoderInjective :
    validInput [5] = true ∧ rleDecode [0x81, 5] = some [5] ∧ rleDecode [0x80, 9] = some [] := by decide

end Sys2Proof.Machine.Tests
end

section
/-! The host's accesses (20_memory.md section 2): what an access reaches, said once for each range of the address map
(R51), and then what a read and a write of each target do. -/

namespace Sys2Proof.Machine

variable {s : State} {a : Offset} {n : Size} {i : Nat}

/-! ## What an access reaches -/

theorem State.target_four_reg (hal : a.toNat % 4 = 0) (hle : a.toNat ≤ 0xFF) :
    s.target a .four = .reg (regOf a) :=
  if_pos ⟨hal, by omega⟩

theorem State.target_four_inert (h : a.toNat % 4 ≠ 0 ∨ 0xFF < a.toNat) : s.target a .four = .inert :=
  if_neg (by omega)

theorem State.target_two_inert : s.target a .two = .inert := rfl

theorem State.target_one_inByte (hlo : 0x100000 ≤ a.toNat) (hhi : a.toNat < 0x100000 + s.inCap) :
    s.target a .one = .inByte (a.toNat - 0x100000) :=
  if_pos ⟨hlo, hhi⟩

/-- The bound on IN_CAP keeps the IN_BUF window below the OUT_BUF window. -/
theorem State.target_one_outByte (hcap : s.inCap ≤ Config.capMax) (hlo : 0x200000 ≤ a.toNat)
    (hhi : a.toNat < 0x200000 + s.outCap) : s.target a .one = .outByte (a.toNat - 0x200000) := by
  have hin : ¬(inBase ≤ a.toNat ∧ a.toNat < inBase + s.inCap) := by
    simp only [inBase, Config.capMax] at *
    omega
  exact (if_neg hin).trans (if_pos ⟨hlo, hhi⟩)

theorem State.target_one_inert (hin : ¬(0x100000 ≤ a.toNat ∧ a.toNat < 0x100000 + s.inCap))
    (hout : ¬(0x200000 ≤ a.toNat ∧ a.toNat < 0x200000 + s.outCap)) : s.target a .one = .inert :=
  (if_neg hin).trans (if_neg hout)

/-- Past the register window only 1-byte accesses are answered. -/
theorem State.target_inert_of_ne_one (ha : 0xFF < a.toNat) (hn : n ≠ .one) : s.target a n = .inert := by
  cases n with
  | one => exact absurd rfl hn
  | two => exact target_two_inert
  | four => exact target_four_inert (.inr ha)

/-- The offset of `IN_BUF[i]` does not wrap, and a 1-byte access to it reaches that byte. -/
theorem State.target_inBuf_offset (hcap : s.inCap ≤ Config.capMax) (hi : i < s.inCap) :
    s.target (BitVec.ofNat 22 (0x100000 + i)) .one = .inByte i := by
  have ha : (BitVec.ofNat 22 (0x100000 + i)).toNat = 0x100000 + i := by
    simp only [Config.capMax] at hcap
    exact Nat.mod_eq_of_lt (by omega)
  rw [target_one_inByte (by omega) (by omega), ha, Nat.add_sub_cancel_left]

/-- The offset of `OUT_BUF[i]` does not wrap, and a 1-byte access to it reaches that byte. -/
theorem State.target_outBuf_offset (hin : s.inCap ≤ Config.capMax) (hout : s.outCap ≤ Config.capMax)
    (hi : i < s.outCap) : s.target (BitVec.ofNat 22 (0x200000 + i)) .one = .outByte i := by
  have ha : (BitVec.ofNat 22 (0x200000 + i)).toNat = 0x200000 + i := by
    simp only [Config.capMax] at hout
    exact Nat.mod_eq_of_lt (by omega)
  rw [target_one_outByte hin (by omega) (by omega), ha, Nat.add_sub_cancel_left]

/-! ## What an access to each target does -/

theorem State.access_reg {r : Reg} (h : s.target a n = .reg r) (v : Word) :
    s.memRead a n = .ok (s.regRead r, s) ∧ s.memWrite a n v = s.regWrite r v := by
  simp [State.memRead, State.memWrite, h]

theorem State.access_inByte (h : s.target a n = .inByte i) (v : Word) :
    s.memRead a n = s.readIn i ∧ s.memWrite a n v = s.writeIn i (v.setWidth 8) := by
  simp [State.memRead, State.memWrite, h]

theorem State.access_outByte (h : s.target a n = .outByte i) (v : Word) :
    s.memRead a n = s.readOut i ∧ s.memWrite a n v = s.writeOut i (v.setWidth 8) := by
  simp [State.memRead, State.memWrite, h]

theorem State.access_inert (h : s.target a n = .inert) (v : Word) :
    s.memRead a n = .ok (0, s) ∧ s.memWrite a n v = s := by
  simp [State.memRead, State.memWrite, h]

/-! ## The bytes of the buffers -/

theorem State.writeIn_busy (h : s.busy = true) (i : Nat) (b : Byte) : s.writeIn i b = s := if_pos h

theorem State.writeIn_idle (h : s.busy = false) (i : Nat) (b : Byte) :
    s.writeIn i b = { s with inBuf := Cells.write s.inBuf i b } := by
  simp [State.writeIn, h]

theorem State.readIn_written {b : Byte} (h : Cells.read s.inBuf i = some b) :
    s.readIn i = .ok (b.setWidth 32, s) := by
  simp [State.readIn, h]

theorem State.writeOut_busy (h : s.busy = true) (i : Nat) (b : Byte) : s.writeOut i b = s := if_pos h

theorem State.writeOut_idle (h : s.busy = false) (i : Nat) (b : Byte) :
    s.writeOut i b = { s with outBuf := Cells.write s.outBuf i b } := by
  simp [State.writeOut, h]

theorem State.readOut_busy (h : s.busy = true) (i : Nat) :
    s.readOut i = .ok ((Config.drawByte s.draws).setWidth 32, { s with draws := s.draws + 1 }) := if_pos h

theorem State.readOut_idle_written {b : Byte} (hidle : s.busy = false) (h : Cells.read s.outBuf i = some b) :
    s.readOut i = .ok (b.setWidth 32, s) := by
  simp [State.readOut, hidle, h]

end Sys2Proof.Machine
end

section
/-! The statements about the host's accesses. -/

namespace Sys2Proof.Machine

/-- Settles O20: the last multiple of 4 in the window is 0xFC, the last register's offset, and the buffer windows begin
past it. -/
theorem registerWindowAccess : Obligations.RegisterWindowAccess := by
  intro s a n v ha
  constructor
  · rintro ⟨rfl, hal⟩
    exact State.access_reg (State.target_four_reg hal ha) v
  · intro hnot
    have ht : s.target a n = .inert := by
      cases n with
      | one => exact State.target_one_inert (by omega) (by omega)
      | two => exact State.target_two_inert
      | four => exact State.target_four_inert (.inl fun hal => hnot ⟨rfl, hal⟩)
    exact State.access_inert ht v

/-- Settles O21, by the target of an access in each window. -/
theorem bufferWindowsAnswerBytes : Obligations.BufferWindowsAnswerBytes := by
  intro s a v hin _
  constructor
  · intro hlo hhi
    exact ⟨State.target_one_inByte hlo hhi,
      fun n hn => State.access_inert (State.target_inert_of_ne_one (by omega) hn) v⟩
  · intro hlo hhi
    exact ⟨State.target_one_outByte hin hlo hhi,
      fun n hn => State.access_inert (State.target_inert_of_ne_one (by omega) hn) v⟩

/-- Settles O22: an unmapped offset lies past the register window and in neither buffer window. -/
theorem unmappedOffsets : Obligations.UnmappedOffsets := by
  intro s a n v hin hout hrange
  simp only [Config.capMax] at hin hout
  have ht : s.target a n = .inert := by
    by_cases hn : n = .one
    · subst hn
      exact State.target_one_inert (by omega) (by omega)
    · exact State.target_inert_of_ne_one (by omega) hn
  exact State.access_inert ht v

/-- Settles O23, by the byte's target and what `writeIn` and `readIn` do to it. -/
theorem inputBufferBytes : Obligations.InputBufferBytes := by
  intro s i v hcap hi a
  obtain ⟨hread, hwrite⟩ := State.access_inByte (State.target_inBuf_offset hcap hi) v
  rw [hread, hwrite]
  refine ⟨fun hbusy => State.writeIn_busy hbusy _ _, fun hidle => ?_, fun b hb => State.readIn_written hb⟩
  rw [State.writeIn_idle hidle]
  exact ⟨rfl, Cells.read_write_same _ _ _, fun j hj => Cells.read_write_other _ _ hj.symm⟩

/-- Settles O24, by the byte's target and what `writeOut` and `readOut` do to it. -/
theorem outputBufferBytes : Obligations.OutputBufferBytes := by
  intro s i v hin hout hi a
  obtain ⟨hread, hwrite⟩ := State.access_outByte (State.target_outBuf_offset hin hout hi) v
  rw [hread, hwrite]
  refine ⟨fun hbusy => ⟨State.writeOut_busy hbusy _ _, State.readOut_busy hbusy _⟩, fun hidle => ?_⟩
  rw [State.writeOut_idle hidle]
  exact ⟨rfl, Cells.read_write_same _ _ _, fun j hj => Cells.read_write_other _ _ hj.symm,
    fun b hb => State.readOut_idle_written hidle hb⟩

end Sys2Proof.Machine
end

section
/-! The groups that the encoder emits: one for each chunk of each run (41_compress.md R143, R144), and their shape
(30_encoding.md R87). -/

namespace Sys2Proof.Machine

/-! ## The values of runs, and the values, lengths and markers of chunks -/

/-- Joining a run brings no value but its own. -/
theorem of_mem_joinRun {r : Byte × Nat} {v : Byte} {l : Nat} {rs : List (Byte × Nat)} (h : r ∈ joinRun v l rs) :
    r.1 = v ∨ r ∈ rs := by
  cases rs with
  | nil =>
    obtain rfl := List.mem_singleton.mp h
    exact .inl rfl
  | cons q more =>
    simp only [joinRun] at h
    split at h <;> rcases List.mem_cons.mp h with rfl | hr
    · exact .inl rfl
    · exact .inr (List.mem_cons_of_mem q hr)
    · exact .inl rfl
    · exact .inr hr

/-- The values of the runs are bytes of the input. -/
theorem mem_of_mem_runs {r : Byte × Nat} {src : List Byte} (h : r ∈ runs src) : r.1 ∈ src := by
  induction src with
  | nil => simp [runs] at h
  | cons b bs ih =>
    rw [runs_cons] at h
    rcases of_mem_joinRun h with hval | hr
    · exact hval ▸ List.mem_cons_self
    · exact List.mem_cons_of_mem b (ih hr)

/-- A chunk keeps its run's value, and its length is 1 to 127 (41_compress.md R142). -/
theorem of_mem_chunks {v : Byte} {l : Nat} {c : Byte × Nat} (h : c ∈ chunks v l) :
    c.1 = v ∧ 1 ≤ c.2 ∧ c.2 ≤ 127 := by
  rcases List.mem_append.mp h with hfull | hrest
  · obtain rfl := List.eq_of_mem_replicate hfull
    simp
  · split at hrest
    · rename_i hpos
      obtain rfl := List.mem_singleton.mp hrest
      exact ⟨rfl, hpos, by simp only [maxChunk]; omega⟩
    · simp at hrest

/-- The marker of a chunk of length at most 127 does not wrap (30_encoding.md R84). -/
theorem markerByte_toNat {c : Nat} (h : c ≤ 127) : (markerByte c).toNat = c + 128 := by
  simp only [markerByte, BitVec.toNat_ofNat]
  omega

theorem highBit_iff (b : Byte) : highBit b = true ↔ 0x80 ≤ b.toNat := by revert b; decide

/-! ## Groups of the emitted shape -/

/-- The shape R87 gives an emitted group: a literal or a value byte has bit 7 clear, a marker is at least 0x82. -/
def Group.Emitted : Group → Prop
  | .one b => highBit b = false
  | .two b0 b1 => 0x82 ≤ b0.toNat ∧ highBit b1 = false

/-- A byte with bit 7 clear is a group of its own (30_encoding.md R86). -/
theorem groups_one {b : Byte} (h : highBit b = false) (rest : List Byte) :
    groups (b :: rest) = (groups rest).map fun gs => .one b :: gs := by
  rw [groups.eq_def]
  simp [h]

/-- A byte with bit 7 set and the byte after it are one group (30_encoding.md R86). -/
theorem groups_two {b0 : Byte} (h : highBit b0 = true) (b1 : Byte) (rest : List Byte) :
    groups (b0 :: b1 :: rest) = (groups rest).map fun gs => .two b0 b1 :: gs := by
  rw [groups.eq_def]
  simp [h]

/-- Groups of the emitted shape are read back from their bytes. -/
theorem groups_flatMap_bytes {gs : List Group} (h : ∀ g ∈ gs, g.Emitted) :
    groups (gs.flatMap Group.bytes) = some gs := by
  induction gs with
  | nil => simp [groups]
  | cons g gs ih =>
    rw [List.forall_mem_cons] at h
    obtain ⟨hg, hgs⟩ := h
    rw [List.flatMap_cons]
    cases g with
    | one b =>
      change groups (b :: gs.flatMap Group.bytes) = _
      rw [groups_one hg, ih hgs, Option.map_some]
    | two b0 b1 =>
      have hb : highBit b0 = true := (highBit_iff b0).mpr (Nat.le_trans (by decide) hg.1)
      change groups (b0 :: b1 :: gs.flatMap Group.bytes) = _
      rw [groups_two hb, ih hgs, Option.map_some]

/-- The last byte of groups of the emitted shape is a literal or a value byte. -/
theorem highBit_getLast?_bytes {gs : List Group} {b : Byte} (h : ∀ g ∈ gs, g.Emitted)
    (hb : (gs.flatMap Group.bytes).getLast? = some b) : highBit b = false := by
  obtain rfl | ⟨init, g, rfl⟩ := gs.eq_nil_or_concat
  · simp at hb
  · have hg : g.Emitted := h g (by simp)
    cases g with
    | one b0 =>
      obtain rfl : b0 = b := by simpa [Group.bytes] using hb
      exact hg
    | two b0 b1 =>
      obtain rfl : b1 = b := by simpa [Group.bytes, List.getLast?_append] using hb
      exact hg.2

/-- A byte of a group of the emitted shape is below 0x80 or at least 0x82. -/
theorem Group.Emitted.byte_range {g : Group} {b : Byte} (h : g.Emitted) (hb : b ∈ g.bytes) :
    b.toNat < 0x80 ∨ 0x82 ≤ b.toNat := by
  have low (x : Byte) (hx : highBit x = false) : x.toNat < 0x80 := by
    rw [← Nat.not_le, ← highBit_iff, hx]
    exact Bool.false_ne_true
  cases g with
  | one b0 =>
    obtain rfl := List.mem_singleton.mp hb
    exact .inl (low b h)
  | two b0 b1 =>
    obtain rfl | rfl : b = b0 ∨ b = b1 := by simpa [Group.bytes] using hb
    · exact .inr h.1
    · exact .inl (low b h.2)

/-! ## The groups of the encoder's output -/

/-- The group a chunk emits. -/
def chunkGroup (v : Byte) (c : Nat) : Group := if c = 1 then .one v else .two (markerByte c) v

theorem chunkGroup_bytes (v : Byte) (c : Nat) : (chunkGroup v c).bytes = emit v c := by
  unfold chunkGroup emit
  split <;> rfl

theorem chunkGroup_emitted {v : Byte} {c : Nat} (hv : highBit v = false) (h1 : 1 ≤ c) (h127 : c ≤ 127) :
    (chunkGroup v c).Emitted := by
  unfold chunkGroup
  split
  · exact hv
  · exact ⟨by rw [markerByte_toNat h127]; omega, hv⟩

/-- The groups that the encoder emits, in input order. -/
def emittedGroups (src : List Byte) : List Group :=
  (runs src).flatMap fun r => (chunks r.1 r.2).map fun c => chunkGroup c.1 c.2

theorem emittedGroups_bytes (src : List Byte) : (emittedGroups src).flatMap Group.bytes = rleEncode src := by
  simp only [emittedGroups, rleEncode, List.flatMap_assoc, List.flatMap_map, chunkGroup_bytes]

/-- On valid input every group has the emitted shape: its value is an input byte, its count a chunk's length. -/
theorem emittedGroups_emitted {src : List Byte} (h : validInput src = true) : ∀ g ∈ emittedGroups src, g.Emitted := by
  intro g hg
  simp only [emittedGroups, List.mem_flatMap, List.mem_map] at hg
  obtain ⟨r, hr, c, hc, rfl⟩ := hg
  obtain ⟨hval, h1, h127⟩ := of_mem_chunks hc
  have hlow : highBit r.1 = false := by simpa using List.all_eq_true.mp h r.1 (mem_of_mem_runs hr)
  exact chunkGroup_emitted (hval ▸ hlow) h1 h127

/-- Settles O53: the output is the bytes of groups of the emitted shape. -/
theorem emittedStreamShape : Obligations.EmittedStreamShape := by
  intro src hvalid
  have hshape := emittedGroups_emitted hvalid
  have hrange : ∀ b ∈ rleEncode src, b.toNat < 0x80 ∨ 0x82 ≤ b.toNat := by
    intro b hb
    rw [← emittedGroups_bytes, List.mem_flatMap] at hb
    obtain ⟨g, hg, hbg⟩ := hb
    exact (hshape g hg).byte_range hbg
  refine ⟨⟨emittedGroups src, ?_, emittedGroups_bytes src, fun b hb => hshape _ hb, fun b0 b1 hb => hshape _ hb⟩,
    fun b hb => ?_, fun h => absurd (hrange _ h) (by decide), fun h => absurd (hrange _ h) (by decide)⟩
  · rw [← emittedGroups_bytes]
    exact groups_flatMap_bytes hshape
  · rw [← emittedGroups_bytes] at hb
    exact highBit_getLast?_bytes hshape hb

end Sys2Proof.Machine
end

section
/-! Acceptance, and the host's moves while a command is in flight (40_commands.md R110, R111). -/

namespace Sys2Proof.Machine

variable {s t : State} {a : Offset} {n : Size}

/-- A 4-byte write of offset 0 is the CMD write (20_memory.md section 2). -/
theorem State.memWrite_cmd (s : State) (w : Word) : s.memWrite 0x000000#22 .four w = s.commandWrite w :=
  (State.access_reg (State.target_four_reg (by decide) (by decide)) w).2

/-- Settles O15, by what an accepted CMD write does. -/
theorem acceptanceLatches : Obligations.AcceptanceLatches := by
  intro s w hidle
  rw [State.memWrite_cmd, State.commandWrite_idle s w hidle]
  rfl

/-- While BUSY = 1 every host write is ignored: each write that stores something needs BUSY = 0. -/
theorem State.memWrite_busy (hbusy : s.busy = true) (a : Offset) (n : Size) (v : Word) : s.memWrite a n v = s := by
  rcases s.memWrite_cases a n v with hsame | hstore
  · exact hsame
  · simp [hbusy] at hstore

/-- A host read changes the draw counter at most (20_memory.md R64). -/
theorem State.memRead_frame {v : Word} (h : s.memRead a n = .ok (v, t)) : t = { s with draws := t.draws } := by
  rcases s.memRead_ok t a n v h with rfl | ⟨_, _, rfl⟩ <;> rfl

/-- A move of the host while BUSY = 1 changes the host itself, the bus record and the draw counter at most. -/
theorem hostMove_busy_frame (hbusy : s.busy = true) (h : hostMove s = .next t) :
    t = { s with host := t.host, bus := t.bus, draws := t.draws } := by
  obtain ⟨u, hu, ht⟩ := hostMove_next h
  have hframe : u = { s with draws := u.draws } := by
    rcases hu with rfl | ⟨a, n, v, rfl⟩ | ⟨a, n, v, hread⟩
    · rfl
    · rw [State.memWrite_busy hbusy]
    · exact State.memRead_frame hread
  rw [ht, hframe]

/-- With no pass open, a step on the host's turn is the host's move with the turn used up. -/
theorem step_host (hwork : s.work = .none) (hturn : s.turn = .host) : step s = hostMove s.turnTaken := by
  simp [step, machineMove, hwork, hturn, agentMove]

/-- Settles O16: while BUSY = 1 host writes are ignored, and host reads make draws at most. -/
theorem busyCommandWriteIgnored : Obligations.BusyCommandWriteIgnored := by
  refine ⟨fun s w hbusy => State.memWrite_busy hbusy _ _ w, fun s t hbusy hwork hturn hstep => ?_⟩
  rw [step_host hwork hturn] at hstep
  rw [hostMove_busy_frame (by simpa using hbusy) hstep]
  simp

end Sys2Proof.Machine
end

section
/-! The frame of a completion (40_commands.md R115). -/

namespace Sys2Proof.Machine

theorem State.finish_untouched (s : State) (c : ErrCode) (len : Nat) (out : Memory) (d : Nat) :
    Untouched s (s.finish c len out d) :=
  ⟨rfl, rfl, rfl, rfl, rfl, rfl, rfl, rfl⟩

/-- A completion, whatever its result, leaves alone what no completion writes. -/
theorem State.complete_untouched (s : State) (lim : Nat) (r : Result) : Untouched s (s.complete lim r) := by
  obtain ⟨c, len, bytes, d, heq, -⟩ := s.complete_eq_finish lim r
  rw [heq]
  exact s.finish_untouched c len _ d

/-- A completion whose result fits the limit writes at most `lim` bytes of OUT_BUF, from index 0 on; with the Unspec
result they are draws. -/
theorem State.read_complete_outBuf_past (s : State) {lim cap a : Nat} {r : Result} (hfits : r.fits lim cap)
    (ha : lim ≤ a) : Cells.read (s.complete lim r).outBuf a = Cells.read s.outBuf a := by
  obtain ⟨c, len, bytes, d, heq, -, hbytes⟩ := s.complete_eq_finish lim r
  have hlen : bytes.length ≤ lim := by
    cases r with
    | ok out =>
      obtain ⟨-, -, rfl, -⟩ := hbytes
      exact hfits.1
    | err e =>
      obtain ⟨-, -, rfl, -⟩ := hbytes
      exact Nat.zero_le lim
    | unspec =>
      obtain ⟨-, -, hdraws⟩ := hbytes
      exact Nat.le_of_eq hdraws
  rw [heq, State.finish_outBuf]
  exact Cells.read_writeList_after bytes s.outBuf (by omega)

/-- Settles O36: a command that answers completes with a result that fits the latched limit. -/
theorem completionFrame : Obligations.CompletionFrame := by
  intro i s t p hi hp hexec
  obtain ⟨q, r, hq, rfl, hfits⟩ := exec_command_next hi hexec
  obtain rfl : p = q := Option.some.inj (hp.symm.trans hq)
  exact ⟨s.complete_untouched _ r, fun a ha => s.read_complete_outBuf_past hfits ha⟩

end Sys2Proof.Machine
end

section
/-! The partition into runs (41_compress.md R141): joining a run to a list of runs, and what the partition meets. -/

namespace Sys2Proof.Machine

/-- The bytes that (value, length) pairs stand for, in order: of runs the input, and of their chunks too. -/
def expandRuns (rs : List (Byte × Nat)) : List Byte := rs.flatMap fun r => List.replicate r.2 r.1

@[simp] theorem expandRuns_nil : expandRuns [] = [] := rfl

@[simp] theorem expandRuns_cons (v : Byte) (l : Nat) (rs : List (Byte × Nat)) :
    expandRuns ((v, l) :: rs) = List.replicate l v ++ expandRuns rs := rfl

@[simp] theorem expandRuns_append (rs qs : List (Byte × Nat)) :
    expandRuns (rs ++ qs) = expandRuns rs ++ expandRuns qs := List.flatMap_append

theorem length_expandRuns (rs : List (Byte × Nat)) : (expandRuns rs).length = (rs.map Prod.snd).sum := by
  simp [expandRuns, List.length_flatMap]

/-- Neighbouring runs have different values: the third condition of 41_compress.md R141. -/
def NeighboursDiffer (rs : List (Byte × Nat)) : Prop := rs.IsChain fun r q => r.1 ≠ q.1

theorem neighboursDiffer_iff_getElem (rs : List (Byte × Nat)) :
    NeighboursDiffer rs ↔ ∀ j (h : j + 1 < rs.length), rs[j].1 ≠ rs[j + 1].1 := List.isChain_iff_getElem

theorem neighboursDiffer_cons {r : Byte × Nat} {rs : List (Byte × Nat)} :
    NeighboursDiffer (r :: rs) ↔ (∀ q ∈ rs.head?, r.1 ≠ q.1) ∧ NeighboursDiffer rs := List.isChain_cons

/-! ## Joining a run -/

/-- A run that differs from the first one stays a run of its own. -/
theorem joinRun_eq_cons {v : Byte} {rs : List (Byte × Nat)} (h : ∀ q ∈ rs.head?, v ≠ q.1) (l : Nat) :
    joinRun v l rs = (v, l) :: rs := by
  cases rs with
  | nil => rfl
  | cons q more => exact if_neg (h q rfl).symm

/-- The first run after a join has the joined value. -/
theorem fst_of_mem_head?_joinRun {v : Byte} {l : Nat} {rs : List (Byte × Nat)} {q : Byte × Nat}
    (h : q ∈ (joinRun v l rs).head?) : q.1 = v := by
  cases rs with
  | nil => exact (Option.some.inj h) ▸ rfl
  | cons r more =>
    rw [joinRun] at h
    split at h <;> exact (Option.some.inj h) ▸ rfl

theorem expandRuns_joinRun (v : Byte) (l : Nat) (rs : List (Byte × Nat)) :
    expandRuns (joinRun v l rs) = List.replicate l v ++ expandRuns rs := by
  cases rs with
  | nil => rfl
  | cons r more =>
    obtain ⟨u, k⟩ := r
    by_cases h : u = v
    · simp [joinRun, h, ← List.replicate_append_replicate]
    · simp [joinRun, h]

theorem joinRun_lengths_pos {v : Byte} {l : Nat} {rs : List (Byte × Nat)} (hl : 1 ≤ l) (h : ∀ r ∈ rs, 1 ≤ r.2) :
    ∀ r ∈ joinRun v l rs, 1 ≤ r.2 := by
  cases rs with
  | nil => simpa [joinRun] using hl
  | cons q more =>
    rw [List.forall_mem_cons] at h
    obtain ⟨hq, hmore⟩ := h
    rw [joinRun]
    split
    · exact List.forall_mem_cons.mpr ⟨Nat.le_add_right_of_le hl, hmore⟩
    · exact List.forall_mem_cons.mpr ⟨hl, List.forall_mem_cons.mpr ⟨hq, hmore⟩⟩

theorem NeighboursDiffer.joinRun {rs : List (Byte × Nat)} (h : NeighboursDiffer rs) (v : Byte) (l : Nat) :
    NeighboursDiffer (joinRun v l rs) := by
  cases rs with
  | nil => exact List.isChain_singleton _
  | cons q more =>
    obtain ⟨u, k⟩ := q
    by_cases hv : u = v
    · subst hv
      simpa [Machine.joinRun, neighboursDiffer_cons] using h
    · rw [joinRun_eq_cons fun q hq => Option.some.inj hq ▸ Ne.symm hv]
      exact neighboursDiffer_cons.mpr ⟨fun q hq => Option.some.inj hq ▸ Ne.symm hv, h⟩

/-! ## The three conditions of R141 -/

theorem runs_lengths_pos (src : List Byte) : ∀ r ∈ runs src, 1 ≤ r.2 := by
  induction src with
  | nil => simp [runs]
  | cons b bs ih =>
    rw [runs_cons]
    exact joinRun_lengths_pos (Nat.le_refl 1) ih

@[simp] theorem expandRuns_runs (src : List Byte) : expandRuns (runs src) = src := by
  induction src with
  | nil => rfl
  | cons b bs ih => simp [runs_cons, expandRuns_joinRun, ih]

theorem runs_neighboursDiffer (src : List Byte) : NeighboursDiffer (runs src) := by
  induction src with
  | nil => exact List.isChain_nil
  | cons b bs ih =>
    rw [runs_cons]
    exact ih.joinRun b 1

/-- A block of equal bytes in front is one run, joined with the first. -/
theorem runs_replicate_append (v : Byte) (l : Nat) (bs : List Byte) :
    runs (List.replicate (l + 1) v ++ bs) = joinRun v (l + 1) (runs bs) := by
  induction l with
  | zero => exact runs_cons v bs
  | succ l ih =>
    rw [List.replicate_succ, List.cons_append, runs_cons, ih, joinRun_joinRun, Nat.add_comm]

/-- Uniqueness of the partition: runs of length at least 1 with differing neighbours are the runs of their bytes. -/
theorem runs_expandRuns {rs : List (Byte × Nat)} (hpos : ∀ r ∈ rs, 1 ≤ r.2) (hdiff : NeighboursDiffer rs) :
    runs (expandRuns rs) = rs := by
  induction rs with
  | nil => rfl
  | cons r rs ih =>
    obtain ⟨v, l⟩ := r
    rw [List.forall_mem_cons] at hpos
    obtain ⟨hl, hpos⟩ := hpos
    obtain ⟨hhead, htail⟩ := neighboursDiffer_cons.mp hdiff
    obtain ⟨k, rfl⟩ := Nat.exists_eq_add_of_le' hl
    rw [expandRuns_cons, runs_replicate_append, ih hpos htail, joinRun_eq_cons hhead]

/-- Settles O48: `runs` meets the three conditions, and a list that meets them is the runs of its bytes. -/
theorem runPartition : Obligations.RunPartition := by
  intro src rs
  rw [← neighboursDiffer_iff_getElem]
  constructor
  · rintro ⟨hpos, rfl, hdiff⟩
    exact (runs_expandRuns hpos hdiff).symm
  · rintro rfl
    exact ⟨runs_lengths_pos src, expandRuns_runs src, runs_neighboursDiffer src⟩

end Sys2Proof.Machine
end

section
/-! The encoder's output run by run: its single pass (41_compress.md R144), its length (R147), its inverse (R150). -/

namespace Sys2Proof.Machine

/-- The bytes a run emits: those of its chunks. -/
def emitRun (v : Byte) (l : Nat) : List Byte := (chunks v l).flatMap fun c => emit c.1 c.2

/-- The bytes a list of runs emits. -/
def emitRuns (rs : List (Byte × Nat)) : List Byte := rs.flatMap fun r => emitRun r.1 r.2

theorem rleEncode_eq_emitRuns (src : List Byte) : rleEncode src = emitRuns (runs src) := rfl

@[simp] theorem emitRuns_nil : emitRuns [] = [] := rfl

@[simp] theorem emitRuns_cons (v : Byte) (l : Nat) (rs : List (Byte × Nat)) :
    emitRuns ((v, l) :: rs) = emitRun v l ++ emitRuns rs := rfl

/-- A run of at most 127 emits one chunk (41_compress.md R142). -/
theorem emitRun_short (v : Byte) {l : Nat} (h1 : 1 ≤ l) (h2 : l ≤ 127) : emitRun v l = emit v l := by
  simp [emitRun, chunks_short v h1 h2]

/-- A longer run emits a chunk of 127 first (41_compress.md R142). -/
theorem emitRun_long (v : Byte) (l : Nat) : emitRun v (127 + l) = emit v 127 ++ emitRun v l := by
  simp [emitRun, chunks_long]

/-! ## The single pass -/

/-- Whatever runs follow, a first run that holds 127 bytes more emits a chunk of 127 more. -/
theorem emitRuns_joinRun_long (v : Byte) (l : Nat) (rs : List (Byte × Nat)) :
    emitRuns (joinRun v (127 + l) rs) = emit v 127 ++ emitRuns (joinRun v l rs) := by
  cases rs with
  | nil => simp [joinRun, emitRun_long]
  | cons r more =>
    obtain ⟨u, k⟩ := r
    by_cases h : u = v
    · simp [joinRun, h, Nat.add_assoc, emitRun_long]
    · simp [joinRun, h, emitRun_long]

/-- The pass from a chunk `(v, l)` on: it emits what the runs of the rest emit, with `(v, l)` joined in front. -/
theorem pass_result_from_chunk (bs : List Byte) (i : Nat) (v : Byte) {l : Nat} (out : List Byte) (h1 : 1 ≤ l)
    (h127 : l ≤ 127) :
    (bs.foldl EncoderWork.push { i := i, chunk := some (v, l), out := out }).result =
      out ++ emitRuns (joinRun v l (runs bs)) := by
  induction bs generalizing i v l out with
  | nil => simp [EncoderWork.result, runs, joinRun, emitRun_short v h1 h127]
  | cons b bs ih =>
    rw [List.foldl_cons, runs_cons]
    by_cases hb : b = v
    · subst hb
      rw [joinRun_joinRun]
      obtain hlt | rfl := Nat.lt_or_eq_of_le h127
      · simp [EncoderWork.push, hlt, ih _ _ _ (Nat.le_add_left 1 l) hlt]
      · rw [emitRuns_joinRun_long, ← List.append_assoc]
        simp [EncoderWork.push, ih]
    · have hjoin : joinRun v l (joinRun b 1 (runs bs)) = (v, l) :: joinRun b 1 (runs bs) :=
        joinRun_eq_cons (fun q hq => fst_of_mem_head?_joinRun hq ▸ Ne.symm hb) l
      simp [EncoderWork.push, hb, hjoin, ih, emitRun_short v h1 h127]

/-- Settles O51: the first byte begins a chunk of length 1, and from a chunk on the pass emits the runs. -/
theorem singlePassEncodes : Obligations.SinglePassEncodes := by
  intro src
  cases src with
  | nil => rfl
  | cons b bs =>
    rw [rleEncode_eq_emitRuns, runs_cons]
    exact pass_result_from_chunk bs 0 b [] (Nat.le_refl 1) (by decide)

/-! ## The length law -/

theorem length_emit (v : Byte) (c : Nat) : (emit v c).length = if c = 1 then 1 else 2 := by
  unfold emit
  split <;> rfl

/-- A run emits as many bytes as it costs (41_compress.md R147). -/
theorem length_emitRun (v : Byte) (l : Nat) : (emitRun v l).length = cost l := by
  have hfull : ((List.replicate (l / 127) (v, 127)).flatMap fun c => emit c.1 c.2).length = 2 * (l / 127) := by
    simp [List.length_flatMap, length_emit, Nat.mul_comm]
  unfold emitRun chunks cost
  rw [List.flatMap_append, List.length_append, hfull]
  by_cases hrest : l % 127 = 0
  · simp [hrest]
  · simp [hrest, Nat.pos_of_ne_zero hrest, length_emit]

theorem cost_le (l : Nat) : cost l ≤ l := by
  unfold cost maxChunk
  split_ifs <;> omega

theorem cost_eq_iff {l : Nat} (h : 1 ≤ l) : cost l = l ↔ l = 1 ∨ l = 2 := by
  unfold cost maxChunk
  split_ifs <;> omega

theorem length_emitRuns (rs : List (Byte × Nat)) : (emitRuns rs).length = (rs.map fun r => cost r.2).sum := by
  simp [emitRuns, List.length_flatMap, length_emitRun]

/-- Runs emit at most as many bytes as they stand for. -/
theorem length_emitRuns_le (rs : List (Byte × Nat)) : (emitRuns rs).length ≤ (expandRuns rs).length := by
  rw [length_emitRuns, length_expandRuns]
  exact List.sum_le_sum fun r _ => cost_le r.2

/-- Runs emit as many bytes as they stand for exactly when each of them does. -/
theorem length_emitRuns_eq_iff {rs : List (Byte × Nat)} (hpos : ∀ r ∈ rs, 1 ≤ r.2) :
    (emitRuns rs).length = (expandRuns rs).length ↔ ∀ r ∈ rs, r.2 = 1 ∨ r.2 = 2 := by
  induction rs with
  | nil => simp
  | cons r rs ih =>
    obtain ⟨v, l⟩ := r
    rw [List.forall_mem_cons] at hpos
    obtain ⟨hl, hpos⟩ := hpos
    have hcost : cost l ≤ l := cost_le l
    have hrest := length_emitRuns_le rs
    rw [List.forall_mem_cons, ← ih hpos, ← cost_eq_iff hl]
    simp only [emitRuns_cons, expandRuns_cons, List.length_append, length_emitRun, List.length_replicate]
    omega

/-- Settles O52, by the cost of each run. -/
theorem encodedLength : Obligations.EncodedLength := by
  intro src
  have hle := length_emitRuns_le (runs src)
  have heq := length_emitRuns_eq_iff (runs_lengths_pos src)
  rw [expandRuns_runs] at hle heq
  exact ⟨length_emitRuns (runs src), hle, heq⟩

/-! ## The decoder inverts the encoder -/

theorem validInput_iff (src : List Byte) : validInput src = true ↔ ∀ b ∈ src, highBit b = false := by
  simp [validInput]

/-- The chunks of a run stand for the run's bytes (41_compress.md R142). -/
theorem expandRuns_chunks (v : Byte) (l : Nat) : expandRuns (chunks v l) = List.replicate l v := by
  induction l using Nat.strong_induction_on with
  | h l ih =>
    by_cases hlong : 127 ≤ l
    · obtain ⟨k, rfl⟩ := Nat.exists_eq_add_of_le hlong
      rw [chunks_long, expandRuns_cons, ih k (by omega), List.replicate_append_replicate]
    · by_cases hl : l = 0
      · subst hl; rfl
      · simp [chunks_short v (by omega : 1 ≤ l) (by omega)]

/-- The chunks of a list of runs stand for the bytes of the runs. -/
theorem expandRuns_flatMap_chunks (rs : List (Byte × Nat)) :
    expandRuns (rs.flatMap fun r => chunks r.1 r.2) = expandRuns rs := by
  induction rs with
  | nil => rfl
  | cons r rs ih => rw [List.flatMap_cons, expandRuns_append, expandRuns_chunks, ih]; rfl

/-- Decoding gives back a chunk of a Value (41_compress.md R143, 42_decompress.md R172 to R174). -/
theorem decodeFrom_emit {v : Byte} {c : Nat} (hv : highBit v = false) (h127 : c ≤ 127) (rest : List Byte) :
    decodeFrom .idle (emit v c ++ rest) = (decodeFrom .idle rest).map fun out => List.replicate c v ++ out := by
  unfold emit
  split
  · rename_i hc
    subst hc
    exact decodeFrom_literal v rest hv
  · obtain ⟨hhigh, hcount⟩ := markerByte_spec c h127
    have hgroup := decodeFrom_group (markerByte c) v rest hhigh
    rwa [hcount, valueByte_of_low v hv] at hgroup

/-- Decoding gives back a list of chunks of Values. -/
theorem decodeFrom_emit_chunks {cs : List (Byte × Nat)} (h : ∀ c ∈ cs, highBit c.1 = false ∧ c.2 ≤ 127) :
    decodeFrom .idle (cs.flatMap fun c => emit c.1 c.2) = some (expandRuns cs) := by
  induction cs with
  | nil => rfl
  | cons c cs ih =>
    rw [List.forall_mem_cons] at h
    obtain ⟨⟨hv, h127⟩, hcs⟩ := h
    rw [List.flatMap_cons, decodeFrom_emit hv h127, ih hcs]
    rfl

/-- `RLE_Decode` inverts `RLE_Encode` on valid input (42_decompress.md R180). -/
theorem rleDecode_rleEncode {src : List Byte} (h : validInput src = true) : rleDecode (rleEncode src) = some src := by
  have hchunks : ∀ c ∈ (runs src).flatMap (fun r => chunks r.1 r.2), highBit c.1 = false ∧ c.2 ≤ 127 := by
    intro c hc
    obtain ⟨r, hr, hcr⟩ := List.mem_flatMap.mp hc
    obtain ⟨hval, -, h127⟩ := of_mem_chunks hcr
    exact ⟨hval ▸ (validInput_iff src).mp h r.1 (mem_of_mem_runs hr), h127⟩
  have hdecode := decodeFrom_emit_chunks hchunks
  rwa [List.flatMap_assoc, expandRuns_flatMap_chunks, expandRuns_runs] at hdecode

/-- Decoding gives Values, from either state (42_decompress.md R177). -/
theorem validInput_of_decodeFrom {d : DState} {src out : List Byte} (h : decodeFrom d src = some out) :
    validInput out = true := by
  induction src generalizing d out with
  | nil =>
    cases d with
    | idle => obtain rfl : [] = out := Option.some.inj h; rfl
    | pendingValue c => cases h
  | cons b rest ih =>
    cases d with
    | idle =>
      rw [decodeFrom] at h
      split at h
      · exact ih h
      · obtain ⟨tail, htail, rfl⟩ := Option.map_eq_some_iff.mp h
        simpa [validInput_iff] using (validInput_iff tail).mp (ih htail)
    | pendingValue c =>
      rw [decodeFrom] at h
      obtain ⟨tail, htail, rfl⟩ := Option.map_eq_some_iff.mp h
      rw [validInput_iff]
      intro x hx
      rcases List.mem_append.mp hx with hrep | hin
      · exact List.eq_of_mem_replicate hrep ▸ highBit_valueByte b
      · exact (validInput_iff tail).mp (ih htail) x hin

/-- The decoder's output is valid COMPRESS input (42_decompress.md R177). -/
theorem validInput_of_rleDecode {src out : List Byte} (h : rleDecode src = some out) : validInput out = true :=
  validInput_of_decodeFrom h

/-- Settles O59: the decoder inverts the encoder on valid inputs, and a decoded sequence is a valid input. -/
theorem encoderInjective : Obligations.EncoderInjective := by
  refine ⟨fun src src' hsrc hsrc' henc => ?_, fun y x hdec himage => himage x (validInput_of_rleDecode hdec),
    by decide, by decide⟩
  have hdec := rleDecode_rleEncode hsrc
  rw [henc, rleDecode_rleEncode hsrc'] at hdec
  exact (Option.some.inj hdec).symm

end Sys2Proof.Machine
end

section
/-! The decoder's pass computes `RLE_Decode`, in the two-state form and in the two-variable form (42_decompress.md R171
to R176). -/

namespace Sys2Proof.Machine

/-! ## The two-state form -/

/-- What the decoder has decoded if the stream ends at its working state: nothing inside a group
(42_decompress.md R175). -/
def DecoderWork.decoded (w : DecoderWork) : Option (List Byte) :=
  match w.st with
  | .idle => some w.out
  | .pendingValue _ => none

/-- The pass from any working state decodes the rest of the stream and appends it to the output so far. -/
theorem decoded_foldl_push (src : List Byte) (w : DecoderWork) :
    (src.foldl DecoderWork.push w).decoded = (decodeFrom w.st src).map fun tail => w.out ++ tail := by
  induction src generalizing w with
  | nil =>
    obtain ⟨st, i, out⟩ := w
    cases st with
    | idle => simp [DecoderWork.decoded, decodeFrom]
    | pendingValue c => rfl
  | cons b rest ih =>
    obtain ⟨st, i, out⟩ := w
    rw [List.foldl_cons, ih]
    cases st with
    | idle => cases hb : highBit b <;> simp [DecoderWork.push, decodeFrom, hb, Function.comp_def]
    | pendingValue c => simp [DecoderWork.push, decodeFrom, Function.comp_def]

/-- The pass over a whole stream is `RLE_Decode` (42_decompress.md R171, R176). -/
theorem decoded_foldl_push_start (src : List Byte) :
    (src.foldl DecoderWork.push DecoderWork.start).decoded = rleDecode src := by
  rw [decoded_foldl_push]
  exact Option.map_id'

/-- The result of a DECOMPRESS is Malformed where nothing is decoded, and else what is decoded, under the limit. -/
theorem DecoderWork.result_eq (w : DecoderWork) (lim : Nat) :
    w.result lim = w.decoded.elim (.err .malformedEncoding) fun out => underLimit out lim := by
  obtain ⟨st, i, out⟩ := w
  cases st <;> rfl

/-- The result of a DECOMPRESS as a function of its input (42_decompress.md R170, R175). -/
theorem decodePass_eq (src : List Byte) (lim : Nat) :
    decodePass src lim = (rleDecode src).elim (.err .malformedEncoding) fun out => underLimit out lim := by
  rw [decodePass, DecoderWork.result_eq, decoded_foldl_push_start]

/-! ## The two-variable form -/

/-- The source's two variables and its output, at a working state of the decoder: a marker is active exactly in
PendingValue, and outside it the count is 1 (42_decompress.md R176). -/
def DecoderWork.vars (w : DecoderWork) : VarState :=
  match w.st with
  | .idle => { count := 1, active := false, out := w.out }
  | .pendingValue c => { count := c.toNat, active := true, out := w.out }

/-- The result read off the two variables is what the working state has decoded. -/
theorem DecoderWork.vars_result (w : DecoderWork) :
    (if w.vars.active then none else some w.vars.out) = w.decoded := by
  obtain ⟨st, i, out⟩ := w
  cases st <;> rfl

theorem valueByte_eq_and (b : Byte) : valueByte b = b &&& 0x7F#8 := by revert b; decide

/-- A marker's repeat count (30_encoding.md R84). -/
theorem low7_toNat_of_high {b : Byte} (h : highBit b = true) : (low7 b).toNat = (b.toNat - 128) % 256 := by
  revert b; decide

/-- A turn of the source's loop is a transition of the two-state decoder (42_decompress.md R172 to R174). -/
theorem varStep_vars (w : DecoderWork) (b : Byte) : varStep w.vars b = (w.push b).vars := by
  obtain ⟨st, i, out⟩ := w
  cases st with
  | idle =>
    cases hb : highBit b with
    | true => simp [varStep, DecoderWork.vars, DecoderWork.push, hb, low7_toNat_of_high hb]
    | false => simp [varStep, DecoderWork.vars, DecoderWork.push, hb, valueByte_eq_and]
  | pendingValue c => simp [varStep, DecoderWork.vars, DecoderWork.push, valueByte_eq_and]

/-- Settles O54: the source's loop follows the two-state decoder byte by byte. -/
theorem decoderFormsAgree : Obligations.DecoderFormsAgree := by
  refine ⟨fun src => ?_, rfl⟩
  have hloop : src.foldl varStep DecoderWork.start.vars = (src.foldl DecoderWork.push DecoderWork.start).vars :=
    List.foldl_hom DecoderWork.vars varStep_vars
  rw [← decoded_foldl_push_start, ← DecoderWork.vars_result, ← hloop]
  rfl

end Sys2Proof.Machine
end

section
/-! The two commands commit what the codec's functions compute (41_compress.md R140, 42_decompress.md R170), and the
round trip through both (42_decompress.md R180). -/

namespace Sys2Proof.Machine

section Commits

variable {s : State} {p : Pend} {src out : List Byte}

theorem underLimit_of_le {lim : Nat} (h : out.length ≤ lim) :
    underLimit out lim = .ok out := if_neg (Nat.not_lt.mpr h)

/-- A completion with an output that OUT_LEN can count commits it (40_commands.md R114). -/
theorem State.complete_ok_committed (s : State) (lim : Nat) (h : out.length < 2 ^ 32) :
    Committed s (s.complete lim (.ok out)) out where
  completed := ⟨rfl, rfl, rfl, rfl, rfl, s.complete_untouched lim _⟩
  outLen := (BitVec.toNat_ofNat ..).trans (Nat.mod_eq_of_lt h)
  output i hi := by simpa [State.complete_ok] using Cells.read_writeList_inside out s.outBuf 0 i hi
  rest i hi := by
    rw [State.complete_ok, State.finish_outBuf]
    exact Cells.read_writeList_after out s.outBuf (by omega)
  draws := rfl

/-- COMPRESS of valid input whose encoding fits the limit commits the encoding. -/
theorem exec_compress_commits (h : InFlight s p src) (hvalid : validInput src = true)
    (hfit : (rleEncode src).length ≤ p.lim.toNat) :
    ∃ t, exec .compress s = .next t ∧ Committed s t (rleEncode src) := by
  have hpass : encodePass src = rleEncode src := singlePassEncodes src
  refine ⟨_, execCompress_eq h, ?_⟩
  rw [if_pos hvalid, hpass, underLimit_of_le hfit]
  exact s.complete_ok_committed _ (Nat.lt_of_le_of_lt hfit p.lim.isLt)

/-- DECOMPRESS of a well-formed stream whose Values fit the limit commits them. -/
theorem exec_decompress_commits (h : InFlight s p src) (hdecode : rleDecode src = some out)
    (hfit : out.length ≤ p.lim.toNat) : ∃ t, exec .decompress s = .next t ∧ Committed s t out := by
  refine ⟨_, execDecompress_eq h, ?_⟩
  rw [decodePass_eq, hdecode, Option.elim_some, underLimit_of_le hfit]
  exact s.complete_ok_committed _ (Nat.lt_of_le_of_lt hfit p.lim.isLt)

/-- A window that holds a committed output, as long as OUT_LEN says, is that output. -/
theorem Committed.window_eq {t : State} {bytes : List Byte} (h : Committed s t out)
    (hlen : bytes.length = t.outLen.toNat)
    (hread : ∀ i (hi : i < bytes.length), Cells.read t.outBuf i = some bytes[i]) : bytes = out := by
  refine List.ext_getElem (hlen.trans h.outLen) fun i hi hi' => ?_
  exact Option.some.inj ((hread i hi).symm.trans (h.output i hi'))

end Commits

/-- Settles O58: the encoding of `src` is no longer than `src`, so COMPRESS commits it, and a DECOMPRESS whose window is
the committed output runs on that encoding. -/
theorem roundTrip : Obligations.RoundTrip := by
  refine ⟨fun src => rleDecode_rleEncode, fun s p src hflight hvalid hlim => ?_⟩
  obtain ⟨-, hle, -⟩ := encodedLength src
  have hfit : (rleEncode src).length ≤ p.lim.toNat :=
    calc (rleEncode src).length
      _ ≤ src.length := hle
      _ = p.n.toNat := hflight.length
      _ ≤ p.lim.toNat := hlim
  obtain ⟨t, hexec, hcommit⟩ := exec_compress_commits hflight hvalid hfit
  refine ⟨t, hexec, hcommit.completed.err, fun s' p' enc hflight' hlen hread hlim' => ?_⟩
  obtain rfl : enc = rleEncode src := hcommit.window_eq hlen hread
  exact exec_decompress_commits hflight' (rleDecode_rleEncode hvalid) hlim'

end Sys2Proof.Machine
end

section
/-! The Values a stream decodes to: by groups (30_encoding.md R86), their range (42_decompress.md R177) and their number
(R178). -/

namespace Sys2Proof.Machine

/-- Settles O56: a byte of a valid input has bit 7 clear. -/
theorem decodedValuesValid : Obligations.DecodedValuesValid := by
  intro src out hdecode
  have hvalid : validInput out = true := validInput_of_rleDecode hdecode
  refine ⟨fun b hb => ?_, hvalid⟩
  have hlow : highBit b = false := (validInput_iff out).mp hvalid b hb
  rw [← Nat.not_le, ← highBit_iff, hlow]
  exact Bool.false_ne_true

/-! ## Decoding by groups -/

/-- The Values of a stream are those of its groups, in stream order; it is Malformed when its last group is cut short
(30_encoding.md R86, 42_decompress.md R175). -/
theorem rleDecode_eq_map_groups (src : List Byte) :
    rleDecode src = (groups src).map fun gs => gs.flatMap Group.values := by
  unfold rleDecode
  induction src using groups.induct with
  | case1 => simp [groups, decodeFrom]
  | case2 b hb => simp [groups, decodeFrom, hb]
  | case3 b hb b1 rest ih => simp [decodeFrom_group b b1 rest hb, groups_two hb, ih, Group.values, Function.comp_def]
  | case4 b rest hb ih =>
    simp only [Bool.not_eq_true] at hb
    simp [decodeFrom, hb, groups_one hb, ih, Group.values, Function.comp_def]

/-- The groups of a stream hold its bytes (30_encoding.md R86). -/
theorem flatMap_bytes_of_groups {src : List Byte} {gs : List Group} (h : groups src = some gs) :
    gs.flatMap Group.bytes = src := by
  induction src using groups.induct generalizing gs with
  | case1 =>
    obtain rfl : [] = gs := by simpa [groups] using h
    rfl
  | case2 b hb => simp [groups, hb] at h
  | case3 b hb b1 rest ih =>
    rw [groups_two hb] at h
    obtain ⟨tail, htail, rfl⟩ := Option.map_eq_some_iff.mp h
    simp [Group.bytes, ih htail]
  | case4 b rest hb ih =>
    rw [groups_one (Bool.eq_false_of_not_eq_true hb)] at h
    obtain ⟨tail, htail, rfl⟩ := Option.map_eq_some_iff.mp h
    simp [Group.bytes, ih htail]

/-! ## The length of the output -/

/-- How many Values a group stands for (42_decompress.md R178). -/
def Group.count : Group → Nat
  | .one _ => 1
  | .two b0 _ => b0.toNat % 128

theorem low7_toNat (b : Byte) : (low7 b).toNat = b.toNat % 128 := by simp [low7]

theorem Group.length_values (g : Group) : g.values.length = g.count := by
  cases g with
  | one b => rfl
  | two b0 b1 => simp [Group.values, Group.count, low7_toNat]

theorem length_flatMap_values (gs : List Group) : (gs.flatMap Group.values).length = (gs.map Group.count).sum := by
  simp [List.length_flatMap, Group.length_values]

/-- A group of one byte stands for one Value, a group of two bytes for at most 127 (42_decompress.md R178). -/
theorem Group.count_cases (g : Group) :
    (g.bytes.length = 1 ∧ g.count = 1) ∨ (g.bytes.length = 2 ∧ g.count ≤ 127) := by
  cases g with
  | one b => exact .inl ⟨rfl, rfl⟩
  | two b0 b1 => exact .inr ⟨rfl, Nat.le_of_lt_succ (Nat.mod_lt _ (by decide))⟩

/-- The bounds on the number of Values, by groups. -/
theorem sum_count_bounds (gs : List Group) :
    (gs.flatMap Group.bytes).length % 2 ≤ (gs.map Group.count).sum ∧
    (gs.map Group.count).sum ≤
      127 * ((gs.flatMap Group.bytes).length / 2) + (gs.flatMap Group.bytes).length % 2 := by
  induction gs with
  | nil => simp
  | cons g gs ih =>
    have hg := g.count_cases
    simp only [List.flatMap_cons, List.map_cons, List.sum_cons, List.length_append]
    omega

/-- A stream of `n` bytes: groups of the marker `m` and a value byte, and a literal last when `n` is odd. -/
def markedStream (m : Byte) : Nat → List Byte
  | 0 => []
  | 1 => [0]
  | n + 2 => m :: 0 :: markedStream m n

theorem markedStream_length (m : Byte) (n : Nat) : (markedStream m n).length = n := by
  induction n using Nat.twoStepInduction with
  | zero => rfl
  | one => rfl
  | more n ih _ => simp [markedStream, ih]

/-- It decodes to the marker's count of Values for every two bytes, and one more for the literal. -/
theorem rleDecode_markedStream {m : Byte} (hm : highBit m = true) (n : Nat) :
    ∃ out, rleDecode (markedStream m n) = some out ∧ out.length = (low7 m).toNat * (n / 2) + n % 2 := by
  induction n using Nat.twoStepInduction with
  | zero => exact ⟨[], rfl, by simp⟩
  | one => exact ⟨[0], rfl, by simp⟩
  | more n ih _ =>
    obtain ⟨out, hdecode, hlen⟩ := ih
    unfold rleDecode at hdecode
    refine ⟨List.replicate (low7 m).toNat (valueByte 0) ++ out, ?_, ?_⟩
    · rw [rleDecode, markedStream, decodeFrom_group m 0 _ hm, hdecode, Option.map_some]
    · rw [List.length_append, List.length_replicate, hlen, Nat.add_div_right n Nat.two_pos, Nat.add_mod_right,
        Nat.mul_succ]
      omega

/-- Settles O57: the bounds hold group by group, and are reached by the markers of count 0 and 127. -/
theorem decodedLength : Obligations.DecodedLength := by
  refine ⟨fun src out hdecode => ?_, fun n => ⟨?_, ?_⟩⟩
  · rw [rleDecode_eq_map_groups] at hdecode
    obtain ⟨gs, hgs, rfl⟩ := Option.map_eq_some_iff.mp hdecode
    have hbounds := sum_count_bounds gs
    rw [flatMap_bytes_of_groups hgs, ← length_flatMap_values] at hbounds
    exact ⟨⟨gs, hgs, length_flatMap_values gs⟩, hbounds⟩
  · obtain ⟨out, hdecode, hlen⟩ := rleDecode_markedStream (m := 0x80) (by decide) n
    exact ⟨_, out, markedStream_length 0x80 n, hdecode, by simpa [low7_toNat] using hlen⟩
  · obtain ⟨out, hdecode, hlen⟩ := rleDecode_markedStream (m := 0xFF) (by decide) n
    exact ⟨_, out, markedStream_length 0xFF n, hdecode, hlen⟩

end Sys2Proof.Machine
end

section
/-! The stream tokens: the decoder's transitions, and the bytes read as tokens (42_decompress.md R172 to R174). -/

namespace Sys2Proof.Machine

/-- Where a decoder is open, a token runs on its working state. -/
theorem withDecoder_open {s : State} {w : DecoderWork} (h : s.work = .decoder w)
    (k : DecoderWork → Host.Outcome State Fault Refusal) : withDecoder s k = k w := by
  simp [withDecoder, h]

/-- Settles O42: in Idle, and for a byte with bit 7 set. -/
theorem markerTransition : Obligations.MarkerTransition := by
  refine ⟨fun s w c hwork hst => ?_, fun b hb => ⟨low7 b, ?_, low7_toNat_of_high hb⟩⟩
  · rw [exec, execMarker, withDecoder_open hwork, hst]
    rfl
  · have htoken : decodeToken .idle b = .marker (low7 b) := if_pos hb
    rw [decode, htoken]

/-- Settles O43: in Idle, and for a byte with bit 7 clear. -/
theorem literalTransition : Obligations.LiteralTransition := by
  refine ⟨fun s w v hwork hst => ?_, fun b hb => ⟨low7 b, ?_, valueByte_of_low b hb⟩⟩
  · rw [exec, execLiteral, withDecoder_open hwork, hst]
    rfl
  · have htoken : decodeToken .idle b = .literal (low7 b) := if_neg (ne_true_of_eq_false hb)
    rw [decode, htoken]

/-- Settles O44: in PendingValue, and for every byte. -/
theorem repeatValueTransition : Obligations.RepeatValueTransition := by
  refine ⟨fun s w c x v hwork hst => ?_, fun b c => ⟨bit7 b, low7 b, rfl, valueByte_eq_and b⟩⟩
  rw [exec, execRepeatValue, withDecoder_open hwork, hst]
  rfl

end Sys2Proof.Machine
end

section
/-! The errors of the commands (60_exceptions.md R202 to R205): which result completes with which code, and which input
gives that result. -/

namespace Sys2Proof.Machine

variable {s : State} {p : Pend} {src : List Byte} {lim : Nat} {c : ErrCode}

/-! ## The completion with an error -/

theorem ErrCode.bits_inj {c d : ErrCode} : c.bits = d.bits ↔ c = d := by
  cases c <;> cases d <;> simp [ErrCode.bits]

/-- The error entry is the failure with its code (60_exceptions.md R210). -/
theorem State.raiseError_failed (s : State) (c : ErrCode) : Failed s (s.raiseError c) c.bits where
  completed := ⟨rfl, rfl, rfl, rfl, rfl, s.finish_untouched c 0 s.outBuf s.draws⟩
  outLen := rfl
  rest _ := rfl
  draws := rfl

/-- ERR shows a code exactly when the result is that error, but for BufferTooSmall, which Unspec may draw
(41_compress.md R146). -/
theorem State.complete_err_eq_iff {r : Result} (hc : c ≠ .none) (hr : r = .unspec → c ≠ .bufferTooSmall) :
    (s.complete lim r).err = c.bits ↔ r = .err c := by
  cases r with
  | ok out => simpa [State.complete_ok, ErrCode.bits_inj] using hc.symm
  | err e => simp [State.complete_err, ErrCode.bits_inj]
  | unspec =>
    obtain ⟨e, len, bytes, d, heq, -, he, -, -⟩ := s.complete_eq_finish lim .unspec
    have hne : e ≠ c := by
      rcases he with rfl | rfl
      · exact hc.symm
      · exact (hr rfl).symm
    simpa [heq, ErrCode.bits_inj] using hne

theorem State.complete_err_eq_one_iff (r : Result) : (s.complete lim r).err = 1 ↔ r = .err .malformedEncoding :=
  State.complete_err_eq_iff (c := .malformedEncoding) nofun nofun

theorem State.complete_err_eq_two_iff {r : Result} (hr : r ≠ .unspec) :
    (s.complete lim r).err = 2 ↔ r = .err .bufferTooSmall :=
  State.complete_err_eq_iff (c := .bufferTooSmall) nofun fun h => absurd h hr

/-- A completion with ERR = 2, but for Unspec, writes no output (60_exceptions.md R203). -/
theorem State.complete_failed_of_err_eq_two {r : Result} (hr : r ≠ .unspec) (h : (s.complete lim r).err = 2) :
    Failed s (s.complete lim r) 2 := by
  obtain rfl := (State.complete_err_eq_two_iff hr).mp h
  exact s.raiseError_failed .bufferTooSmall

/-! ## The results of the passes -/

theorem underLimit_eq_err_iff (out : List Byte) :
    underLimit out lim = .err c ↔ c = .bufferTooSmall ∧ lim < out.length := by
  rw [underLimit]
  split
  next hlong => simp [hlong, eq_comm]
  next hfit => simp [hfit]

theorem underLimit_ne_unspec (out : List Byte) : underLimit out lim ≠ .unspec := by
  rw [underLimit]
  split <;> nofun

/-- A stream is Malformed exactly when nothing is decoded, whatever the limit is (42_decompress.md R179). -/
theorem decodePass_eq_malformed_iff : decodePass src lim = .err .malformedEncoding ↔ rleDecode src = none := by
  rw [decodePass_eq]
  cases rleDecode src with
  | none => simp
  | some out => simp [underLimit_eq_err_iff]

theorem decodePass_eq_bufferTooSmall_iff :
    decodePass src lim = .err .bufferTooSmall ↔ ∃ out, rleDecode src = some out ∧ lim < out.length := by
  rw [decodePass_eq]
  cases rleDecode src with
  | none => simp
  | some out => simp [underLimit_eq_err_iff]

theorem decodePass_ne_unspec : decodePass src lim ≠ .unspec := by
  rw [decodePass_eq]
  cases rleDecode src with
  | none => nofun
  | some out => exact underLimit_ne_unspec out

/-! ## MalformedEncoding and BufferTooSmall -/

/-- No COMPRESS completes with MalformedEncoding: its result is BadLength, its output under the limit, or Unspec. -/
theorem exec_compress_err_ne_one {t : State} (h : exec .compress s = .next t) : t.err ≠ 1 := by
  obtain ⟨q, hq, ⟨-, rfl⟩ | ⟨hlen, src, hread, -⟩⟩ := withInput_next s t _ h
  · exact (by decide : ErrCode.badLength.bits ≠ 1)
  · have heq := execCompress_eq (InFlight.of_readRange hq hlen hread)
    obtain rfl := Host.Outcome.next.inj (h.symm.trans heq)
    rw [ne_eq, State.complete_err_eq_one_iff]
    split
    · simp [underLimit_eq_err_iff]
    · nofun

/-- Settles O31: DECOMPRESS has the result MalformedEncoding exactly where nothing is decoded. -/
theorem malformedEncodingExactly : Obligations.MalformedEncodingExactly := by
  refine ⟨fun s p src hflight => ⟨_, execDecompress_eq hflight, ?_, fun hnone => ?_⟩, fun s t => exec_compress_err_ne_one⟩
  · rw [State.complete_err_eq_one_iff, decodePass_eq_malformed_iff]
  · rw [decodePass_eq_malformed_iff.mpr hnone]
    exact s.raiseError_failed .malformedEncoding

/-- COMPRESS of valid input completes with its encoding under the limit. -/
theorem exec_compress_valid (h : InFlight s p src) (hvalid : validInput src = true) :
    exec .compress s = .next (s.complete p.lim.toNat (underLimit (rleEncode src) p.lim.toNat)) := by
  rw [← singlePassEncodes src]
  exact (execCompress_eq h).trans (by rw [if_pos hvalid]; rfl)

/-- Settles O32: both commands put their output under the limit; an encoding is no longer than its input. -/
theorem bufferTooSmallExactly : Obligations.BufferTooSmallExactly := by
  refine ⟨fun s p src hflight hvalid => ?_, fun s p src hflight => ?_⟩
  · have hspec := underLimit_ne_unspec (lim := p.lim.toNat) (rleEncode src)
    have hcode := (State.complete_err_eq_two_iff (s := s) (lim := p.lim.toNat) hspec).trans
      ((underLimit_eq_err_iff (rleEncode src)).trans (and_iff_right rfl))
    refine ⟨_, exec_compress_valid hflight hvalid, hcode, State.complete_failed_of_err_eq_two hspec, fun hlim herr => ?_⟩
    obtain ⟨-, hle, -⟩ := encodedLength src
    have hlong := hcode.mp herr
    have hlen := hflight.length
    omega
  · exact ⟨_, execDecompress_eq hflight,
      (State.complete_err_eq_two_iff decodePass_ne_unspec).trans decodePass_eq_bufferTooSmall_iff,
      State.complete_failed_of_err_eq_two decodePass_ne_unspec⟩

/-! ## BadLength and IllegalCommand -/

/-- A legal command with an over-large length completes with BadLength before it reads a byte (40_commands.md R113). -/
theorem withInput_badLength (hp : s.pend = some p) (hlen : s.inCap < p.n.toNat ∨ s.outCap < p.lim.toNat)
    (k : Pend → List Byte → Host.Outcome State Fault Refusal) : withInput s k = .next (s.raiseError .badLength) := by
  have hbad : s.lengthsOk p = false := by
    simp only [State.lengthsOk, Bool.and_eq_false_iff, decide_eq_false_iff_not]
    omega
  simp [withInput, hp, hbad]

/-- Settles O34: the two legal commands share the length check. -/
theorem badLengthCompletes : Obligations.BadLengthCompletes := fun s _ hp hlen =>
  ⟨⟨_, withInput_badLength hp hlen _, s.raiseError_failed .badLength⟩,
    ⟨_, withInput_badLength hp hlen _, s.raiseError_failed .badLength⟩⟩

theorem exec_illegalCmd_latched (hp : s.pend = some p) (w : Word) :
    exec (.illegalCmd w) s = .next (s.raiseError .illegalCommand) := by
  simp [exec, execIllegalCmd, hp]

theorem decodeCmd_illegal {w : Word} (h1 : w ≠ 0x00000001#32) (h2 : w ≠ 0x00000002#32) :
    decodeCmd w = .illegalCmd w := by
  rw [decodeCmd, if_neg h1, if_neg h2]

/-- Settles O35: an accepted word is latched, and any word but the two legal ones decodes to ILLEGAL_CMD. -/
theorem illegalCommandCompletes : Obligations.IllegalCommandCompletes := by
  refine ⟨fun s p w hp => ⟨_, exec_illegalCmd_latched hp w, s.raiseError_failed .illegalCommand⟩,
    fun s w hidle h1 h2 => ?_⟩
  have hlatched : (s.memWrite 0x000000#22 .four w).pend = some { op := w, n := s.inLen, lim := s.outLimit } := by
    rw [State.memWrite_cmd, State.commandWrite_idle s w hidle]
  refine ⟨.illegalCmd w, _, ?_, exec_illegalCmd_latched hlatched w, State.raiseError_failed _ .illegalCommand⟩
  rw [decode, decodeCmd_illegal h1 h2]

end Sys2Proof.Machine
end

section
/-! The invariant (10_state.md sections 2 to 5): it holds after a reset, and every move keeps it. -/

namespace Sys2Proof.Machine

variable {s t : State}

/-- The invariant speaks of the block alone: it says nothing of the host, the bus record, the order of moves and the
draw counter. -/
theorem Inv.with_agents (h : Inv s) (host : HostAgent) (bus : Option BusTxn) (sched : List Agent) (draws : Nat) :
    Inv { s with host := host, bus := bus, sched := sched, draws := draws } :=
  { h with }

theorem Inv.turnTaken (h : Inv s) : Inv s.turnTaken := h.with_agents _ _ _ _

/-! ## Reset -/

theorem inv_resetOf {inCap outCap : Nat} (hin : 1 ≤ inCap) (hin' : inCap ≤ Config.capMax) (hout : 1 ≤ outCap)
    (hout' : outCap ≤ Config.capMax) : Inv (State.resetOf inCap outCap) where
  inCap_pos := hin
  inCap_le := hin'
  outCap_pos := hout
  outCap_le := hout'
  busy_iff := rfl
  not_both := nofun
  err_done h := absurd rfl h
  err_le := Nat.zero_le 4
  latch := nofun
  outLen_result h := absurd rfl h
  outLen_le := Nat.zero_le outCap
  written _ h := absurd h (Nat.not_lt_zero _)
  in_wf := rfl
  out_wf := rfl
  in_below := rfl
  out_below := rfl
  closed := rfl

/-- Settles O7: a boot state is a reset block with its agents at their start. -/
theorem resetHasInvariant : Obligations.ResetHasInvariant :=
  ⟨fun _ _ _ _ _ hin hin' hout hout' => (inv_resetOf hin hin' hout hout').with_agents _ _ _ _,
    inv_resetOf (by decide) (by decide) (by decide) (by decide)⟩

theorem Inv.resetBlock (h : Inv s) : Inv s.resetBlock :=
  (inv_resetOf h.inCap_pos h.inCap_le h.outCap_pos h.outCap_le).with_agents _ _ _ _

/-! ## Host writes -/

theorem Inv.pend_none (h : Inv s) (hidle : s.busy = false) : s.pend = none := by
  simpa [hidle] using h.busy_iff.symm

/-- Acceptance (40_commands.md R110) latches the lengths that IN_LEN and OUT_LIMIT hold, and clears the result. -/
theorem Inv.commandWrite (h : Inv s) (hidle : s.busy = false) (w : Word) : Inv (s.commandWrite w) := by
  rw [State.commandWrite_idle s w hidle]
  exact { h with
    busy_iff := rfl
    not_both := nofun
    err_done := fun herr => absurd rfl herr
    err_le := Nat.zero_le 4
    latch := fun _ hp => Option.some.inj hp ▸ ⟨rfl, rfl⟩
    outLen_result := fun hlen => absurd rfl hlen
    outLen_le := Nat.zero_le s.outCap
    written := fun _ hi => absurd hi (Nat.not_lt_zero _) }

/-- A write of IN_LEN or OUT_LIMIT happens with nothing latched. -/
theorem Inv.with_lengths (h : Inv s) (hidle : s.busy = false) (n lim : Word) :
    Inv { s with inLen := n, outLimit := lim } :=
  { h with latch := fun _ hp => absurd (hp.symm.trans (h.pend_none hidle)) nofun }

/-- A host write below the capacity keeps the result's bytes written. -/
theorem Inv.with_outByte (h : Inv s) {i : Nat} (hi : i < s.outCap) (b : Byte) :
    Inv { s with outBuf := Cells.write s.outBuf i b } :=
  { h with
    written := fun j hj => by
      rw [Cells.read_write]
      split
      · rfl
      · exact h.written j hj
    out_wf := Memory.wf_write s.outBuf i b h.out_wf
    out_below := Memory.below_write s.outCap s.outBuf i b hi h.out_below }

theorem Inv.memWrite (h : Inv s) (a : Offset) (n : Size) (v : Word) : Inv (s.memWrite a n v) := by
  rcases s.memWrite_cases a n v with heq | ⟨hidle, -, -, heq⟩ | ⟨hidle, heq⟩ | ⟨hidle, heq⟩ | ⟨-, i, hi, heq⟩ |
    ⟨-, i, hi, heq⟩ <;> rw [heq]
  · exact h
  · exact h.commandWrite hidle v
  · exact h.with_lengths hidle v s.outLimit
  · exact h.with_lengths hidle s.inLen v
  · exact { h with
      in_wf := Memory.wf_write s.inBuf i _ h.in_wf
      in_below := Memory.below_write s.inCap s.inBuf i _ hi h.in_below }
  · exact h.with_outByte hi _

/-- The host's move: at most one bus access, and what is the host's own. -/
theorem Inv.hostMove (h : Inv s) (hmove : hostMove s = .next t) : Inv t := by
  obtain ⟨u, hu, ht⟩ := hostMove_next hmove
  have hinv : Inv u := by
    rcases hu with rfl | ⟨a, n, v, rfl⟩ | ⟨a, n, v, hread⟩
    · exact h
    · exact h.memWrite a n v
    · rw [State.memRead_frame hread]
      exact h.with_agents _ _ _ _
  rw [ht]
  exact hinv.with_agents _ _ _ _

/-! ## Completions -/

/-- A read of a byte that `writeList` writes from index 0 on. -/
theorem Cells.read_writeList_zero {α : Type} (vs : List α) (m : List (Nat × α)) {i : Nat} (h : i < vs.length) :
    Cells.read (Cells.writeList m 0 vs) i = some vs[i] := by
  simpa using Cells.read_writeList_inside vs m 0 i h

/-- A completion that writes at least the bytes OUT_LEN counts, within OUT_CAP, and no length with an error
(40_commands.md R112, R114). -/
theorem Inv.finish (h : Inv s) {c : ErrCode} {len : Nat} {bytes : List Byte} (hc : c ≠ .none → len = 0)
    (hlen : len ≤ bytes.length) (hcap : bytes.length ≤ s.outCap) (draws : Nat) :
    Inv (s.finish c len (Cells.writeList s.outBuf 0 bytes) draws) := by
  have hle : (BitVec.ofNat 32 len).toNat ≤ len := Nat.mod_le len _
  exact { h with
    busy_iff := rfl
    not_both := nofun
    err_done := fun _ => rfl
    err_le := c.bits_le
    latch := nofun
    outLen_result := fun hne => by
      have hnone : c = .none := by
        by_contra hcne
        exact hne (by rw [State.finish_outLen, hc hcne]; rfl)
      exact ⟨rfl, by rw [hnone]; rfl⟩
    outLen_le := by
      simp only [State.finish_outLen, State.finish_outCap]
      omega
    written := fun i hi => by
      rw [State.finish_outLen] at hi
      rw [State.finish_outBuf, Cells.read_writeList_zero bytes s.outBuf (by omega)]
      rfl
    out_wf := Memory.wf_writeList s.outBuf 0 bytes h.out_wf
    out_below := Memory.below_writeList s.outCap bytes s.outBuf 0 (by omega) h.out_below
    closed := rfl }

theorem Inv.complete (h : Inv s) {lim : Nat} {r : Result} (hfits : r.fits lim s.outCap) :
    Inv (s.complete lim r) := by
  obtain ⟨c, len, bytes, d, heq, hc, hr⟩ := s.complete_eq_finish lim r
  rw [heq]
  cases r with
  | ok out =>
    obtain ⟨-, rfl, rfl, -⟩ := hr
    obtain ⟨hlim, hcap⟩ := hfits
    exact h.finish hc (Nat.le_refl _) (Nat.le_trans hlim hcap) d
  | err e =>
    obtain ⟨-, rfl, rfl, -⟩ := hr
    exact h.finish (bytes := []) hc (Nat.le_refl 0) (Nat.zero_le _) d
  | unspec =>
    obtain ⟨-, hlen, hbytes⟩ := hr
    exact h.finish hc (hbytes ▸ hlen) (hbytes ▸ hfits) d

/-- Settles O8, by the agent that moves. -/
theorem stepKeepsInvariant : Obligations.StepKeepsInvariant := by
  intro s t h hstep
  rcases step_next h.closed hstep with ⟨-, hmove⟩ | ⟨-, p, hp, hexec⟩ | ⟨-, -, rfl⟩ | ⟨-, rfl⟩
  · exact h.turnTaken.hostMove hmove
  · obtain ⟨q, r, -, rfl, hfits⟩ := exec_command_next (decodeCmd_standsIn p.op) hexec
    exact h.turnTaken.complete hfits
  · exact h.turnTaken
  · exact h.turnTaken.resetBlock

end Sys2Proof.Machine
end

section
/-! Decoding and encoding (30_encoding.md sections 1 and 2): the fields of a stream byte, and that the decoder and the
encoder invert each other. -/

namespace Sys2Proof.Machine

/-! ## The fields of a stream byte -/

@[simp] theorem low7_append (x : BitVec 1) (v : Value) : low7 (x ++ v) = v := by
  revert x v; decide

@[simp] theorem bit7_append (x : BitVec 1) (v : Value) : bit7 (x ++ v) = x := by
  revert x v; decide

/-- A byte is its bit 7 and its bits 6:0. -/
@[simp] theorem bit7_append_low7 (b : Byte) : (bit7 b ++ low7 b : BitVec 8) = b := by
  revert b; decide

@[simp] theorem ofBool_highBit_append_low7 (b : Byte) : (BitVec.ofBool (highBit b) ++ low7 b : BitVec 8) = b := by
  revert b; decide

@[simp] theorem highBit_append (x : BitVec 1) (v : Value) : highBit (x ++ v) = (x == 1#1) := by
  revert x v; decide

/-- Bits 6:0 are those of every number that agrees with the byte modulo 128. -/
theorem low7_eq_ofNat {b : Byte} {n : Nat} (h : n % 128 = b.toNat % 128) : low7 b = BitVec.ofNat 7 n := by
  apply BitVec.eq_of_toNat_eq
  rw [low7_toNat, BitVec.toNat_ofNat, h]

theorem bit7_eq_ofNat (b : Byte) : bit7 b = BitVec.ofNat 1 (b.toNat / 128) := by
  revert b; decide

/-! ## The two directions -/

theorem decodeToken_marker (c : Value) : decodeToken .idle (1#1 ++ c) = .marker c := by
  simp [decodeToken]

theorem decodeToken_literal (v : Value) : decodeToken .idle (0#1 ++ v) = .literal v := by
  simp [decodeToken]

theorem decodeToken_repeatValue (c : Value) (x : BitVec 1) (v : Value) :
    decodeToken (.pendingValue c) (x ++ v) = .repeatValue x v := by
  simp [decodeToken]

/-- Settles O1, by the row of the instruction: its encoding is the word or the byte of its fields. -/
theorem encodeThenDecode : Obligations.EncodeThenDecode := by
  intro i hwf
  cases i with
  | compress =>
    refine ⟨⟨.cmdWrite, rfl⟩, ?_⟩
    rintro (_ | _) h
    · rfl
    · cases h
  | decompress =>
    refine ⟨⟨.cmdWrite, rfl⟩, ?_⟩
    rintro (_ | _) h
    · rfl
    · cases h
  | illegalCmd w =>
    refine ⟨⟨.cmdWrite, rfl⟩, ?_⟩
    rintro (_ | _) h
    · obtain ⟨h1, h2⟩ : w ≠ 0x00000001#32 ∧ w ≠ 0x00000002#32 := by simpa [Instr.wellFormed] using hwf
      rw [encode, decode, decodeCmd_illegal h1 h2]
    · cases h
  | marker c =>
    refine ⟨⟨.stream .idle, rfl⟩, ?_⟩
    rintro (_ | _ | _) h
    · cases h
    · rw [encode, decode, decodeToken_marker]
    · cases h
  | literal v =>
    refine ⟨⟨.stream .idle, rfl⟩, ?_⟩
    rintro (_ | _ | _) h
    · cases h
    · rw [encode, decode, decodeToken_literal]
    · cases h
  | repeatValue x v =>
    refine ⟨⟨.stream (.pendingValue 0), rfl⟩, ?_⟩
    rintro (_ | _ | c) h
    · cases h
    · cases h
    · rw [encode, decode, decodeToken_repeatValue]

theorem decodeCmd_wellFormed (w : Word) : (decodeCmd w).wellFormed = true := by
  unfold decodeCmd
  split_ifs with h1 h2
  · rfl
  · rfl
  · simp [Instr.wellFormed, h1, h2]

theorem encode_decodeCmd (w : Word) : encode (decodeCmd w) = .cmd32 w := by
  unfold decodeCmd
  split_ifs with h1 h2
  · rw [h1]; rfl
  · rw [h2]; rfl
  · rfl

/-- A token is well formed, stands in the state it was decoded in, and encodes to its byte. -/
theorem decodeToken_spec (d : DState) (b : Byte) :
    (decodeToken d b).wellFormed = true ∧ (decodeToken d b).standsIn (.stream d) = true ∧
      encode (decodeToken d b) = .stream8 b := by
  cases d with
  | idle =>
    have hbyte := ofBool_highBit_append_low7 b
    rw [decodeToken]
    split
    next hb =>
      rw [hb] at hbyte
      exact ⟨rfl, rfl, congrArg CodeUnit.stream8 hbyte⟩
    next hb =>
      rw [Bool.eq_false_of_not_eq_true hb] at hbyte
      exact ⟨rfl, rfl, congrArg CodeUnit.stream8 hbyte⟩
  | pendingValue c => exact ⟨rfl, rfl, congrArg CodeUnit.stream8 (bit7_append_low7 b)⟩

/-- Settles O2: only a word in a CMD write and a byte in a stream decode. -/
theorem decodeThenEncode : Obligations.DecodeThenEncode := by
  intro c u i h
  cases c with
  | cmdWrite =>
    cases u with
    | cmd32 w =>
      obtain rfl : decodeCmd w = i := Except.ok.inj h
      exact ⟨decodeCmd_wellFormed w, decodeCmd_standsIn w, encode_decodeCmd w⟩
    | stream8 b => cases h
  | stream d =>
    cases u with
    | cmd32 w => cases h
    | stream8 b =>
      obtain rfl : decodeToken d b = i := Except.ok.inj h
      exact decodeToken_spec d b

/-! ## The tables -/

/-- Settles O3: the two legal words have bits 31:8 clear. -/
theorem commandWordMap : Obligations.CommandWordMap := by
  have hillegal : ∀ w : Word, w ≠ 0x00000001#32 → w ≠ 0x00000002#32 →
      decode .cmdWrite (.cmd32 w) = .ok (.illegalCmd w) := by
    intro w h1 h2
    rw [decode, decodeCmd_illegal h1 h2]
  refine ⟨rfl, rfl, hillegal, fun w hw => hillegal w ?_ ?_⟩
  · rintro rfl
    exact hw (by decide)
  · rintro rfl
    exact hw (by decide)

/-- Settles O4, by the bytes' fields as numbers. -/
theorem streamTokenTable : Obligations.StreamTokenTable := by
  intro b
  have hhigh := highBit_iff b
  refine ⟨fun h => ?_, fun h => ?_, fun c => ?_⟩
  · rw [decode, decodeToken, if_pos (hhigh.mpr h), low7_eq_ofNat (n := b.toNat - 128) (by omega)]
  · rw [decode, decodeToken, if_neg (by rw [hhigh]; omega), low7_eq_ofNat rfl]
  · rw [decode, decodeToken, bit7_eq_ofNat, low7_eq_ofNat (Nat.mod_mod _ 128)]

/-- Settles O5: each word is read off its row. -/
theorem tableWordsDecode : Obligations.TableWordsDecode := ⟨rfl, rfl, rfl, rfl, rfl, rfl⟩

end Sys2Proof.Machine
end

section
/-! The step, by the agent whose turn it is (20_memory.md R65), and what it does at a line of the host program
(30_encoding.md R91, R92) or at a placed instruction. -/

namespace Sys2Proof.Machine

variable {s : State} {p : Pend}

/-! ## The engine's turn and the reset source's -/

theorem step_engine (hwork : s.work = .none) (hturn : s.turn = .engine) (hp : s.pend = some p) :
    step s = exec (decodeCmd p.op) s.turnTaken := by
  rw [← engineStep_command (s := s.turnTaken) hwork hp]
  simp [step, machineMove, hwork, hturn, agentMove, hp]

theorem step_engine_idle (hwork : s.work = .none) (hturn : s.turn = .engine) (hp : s.pend = none) :
    step s = .next s.turnTaken := by
  simp [step, machineMove, hwork, hturn, agentMove, hp]

theorem step_reset (hwork : s.work = .none) (hturn : s.turn = .reset) :
    step s = .next s.turnTaken.resetBlock := by
  simp [step, machineMove, hwork, hturn, agentMove]

/-- Settles O6, by the block's values after a reset. -/
theorem resetStep : Obligations.ResetStep := fun _ hwork hturn =>
  ⟨_, step_reset hwork hturn, rfl, rfl, rfl, rfl, rfl, rfl, rfl, rfl, rfl, rfl, fun _ => rfl, fun _ => rfl⟩

/-- Settles O9: a command word decodes to the instruction that the engine fetches. -/
theorem stepRunsLatchedCommand : Obligations.StepRunsLatchedCommand := by
  intro s p i hwork hturn hp hdec
  obtain rfl : decodeCmd p.op = i := Except.ok.inj hdec
  exact step_engine hwork hturn hp

theorem withInput_noCommand (hp : s.pend = none) (k : Pend → List Byte → Host.Outcome State Fault Refusal) :
    withInput s k = .refused .noCommand := by
  simp [withInput, hp]

/-- Settles O14: the three commands need a latched command. -/
theorem noCommandNoStep : Obligations.NoCommandNoStep := by
  intro s hp
  refine ⟨withInput_noCommand hp _, withInput_noCommand hp _, fun w => ?_,
    fun hwork hturn => step_engine_idle hwork hturn hp⟩
  simp [exec, execIllegalCmd, hp]

/-! ## The host's lines -/

theorem State.memWrite_host (s : State) (a : Offset) (n : Size) (v : Word) :
    (s.memWrite a n v).host = s.host := by
  rcases s.memWrite_cases a n v with heq | ⟨hidle, -, -, heq⟩ | ⟨-, heq⟩ | ⟨-, heq⟩ | ⟨-, i, -, heq⟩ |
    ⟨-, i, -, heq⟩ <;> rw [heq]
  rw [State.commandWrite_idle s v hidle]
  rfl

/-- Settles O12: the host's move at a write line. -/
theorem hostWriteLine : Obligations.HostWriteLine := by
  intro s n a d v hwork hturn hline hv
  have hmove : hostMove s.turnTaken = hostWrite n a d s.turnTaken := by simp [hostMove, hline]
  have hhost := s.turnTaken.memWrite_host a n v
  rw [step_host hwork hturn, hmove, hostWrite, State.turnTaken_host, hv]
  simp only [State.nextLine, State.goto, State.onBus_host, hhost]
  rfl

/-- Settles O13: the host's move at a read line. -/
theorem hostReadLine : Obligations.HostReadLine := by
  intro s n a x hwork hturn hline
  have hstep : step s = hostRead n a x s.turnTaken := by
    rw [step_host hwork hturn]
    simp [hostMove, hline]
  refine ⟨fun v t hread => ?_, fun f hread => ?_⟩
  · have hhost : t.host = s.host := by rw [State.memRead_frame hread]
    rw [hstep, hostRead, show s.turnTaken.memRead a n = .ok (v, t) from hread]
    simp only [State.nextLine, State.goto, State.onBus_host, State.setVar_host, hhost]
    rfl
  · rw [hstep, hostRead, show s.turnTaken.memRead a n = .error f from hread]

/-! ## The stream tokens -/

/-- With a decoder open and input left, the step runs the token that the next byte is in the decoder's state
(30_encoding.md R89). -/
theorem step_decoder_token {w : DecoderWork} {b : Byte} (hwork : s.work = .decoder w) (hp : s.pend = some p)
    (hi : w.i < p.n.toNat) (hread : Cells.read s.inBuf w.i = some b) : step s = exec (decodeToken w.st b) s := by
  simp [step, machineMove, hwork, engineStep, engineFetch, hp, State.nextInput, hi, hread]

/-- Settles O10: the byte decodes to the token that the step runs. -/
theorem stepRunsStreamToken : Obligations.StepRunsStreamToken := by
  intro s p w b i hwork hp hi hread hdec
  obtain rfl : decodeToken w.st b = i := Except.ok.inj hdec
  exact step_decoder_token hwork hp hi hread

/-! ## Placed instructions -/

theorem decodeTableWord_eq_some {nbits w : Nat} {i : Instr} (h : decodeTableWord nbits w = some i) :
    (nbits = 32 ∧ decodeCmd (BitVec.ofNat 32 w) = i) ∨ (nbits = 8 ∧ decodeToken .idle (BitVec.ofNat 8 w) = i) := by
  unfold decodeTableWord unitOfBits at h
  split_ifs at h with h32 _ h8 _
  · exact .inl ⟨h32, Option.some.inj h⟩
  · exact .inr ⟨h8, Option.some.inj h⟩

/-- A placed command word is latched, and the engine is to move. -/
theorem step_placeCommand (s : State) (w : Word) :
    step (s.placeCommand w) = exec (decodeCmd w) (s.placeCommand w).turnTaken :=
  step_engine (p := { op := w, n := s.inLen, lim := s.outLimit }) rfl rfl rfl

/-- A placed stream byte is the whole input of a decoder in Idle. -/
theorem step_placeStreamByte (s : State) (b : Byte) :
    step (s.placeStreamByte b) = exec (decodeToken .idle b) (s.placeStreamByte b) :=
  step_decoder_token (w := DecoderWork.start) (p := { op := 0x00000002#32, n := 1, lim := s.outLimit }) rfl rfl
    (by simp [DecoderWork.start]) (Cells.read_write_same s.inBuf 0 b)

/-- Settles O11, by the length of the placed instruction. -/
theorem stepRunsPlacedWord : Obligations.StepRunsPlacedWord := by
  intro s nbits w i h
  rcases decodeTableWord_eq_some h with ⟨rfl, rfl⟩ | ⟨rfl, rfl⟩
  · exact step_placeCommand s _
  · exact step_placeStreamByte s _

end Sys2Proof.Machine
end

section
/-! The registers, and what host accesses leave unchanged (10_state.md section 2, 20_memory.md sections 2 to 5). -/

namespace Sys2Proof.Machine

variable {s : State} {a : Offset} {n : Size}

/-! ## The registers -/

/-- A 4-byte access at an offset of the register window reaches its register (20_memory.md R53). -/
theorem State.access_register (s : State) (w : Word) (hal : a.toNat % 4 = 0) (hle : a.toNat ≤ 0xFF) :
    s.memRead a .four = .ok (s.regRead (regOf a), s) ∧ s.memWrite a .four w = s.regWrite (regOf a) w :=
  State.access_reg (State.target_four_reg hal hle) w

/-- Settles O17: both offsets are multiples of 4 in the register window. -/
theorem lengthRegisters : Obligations.LengthRegisters := by
  intro s w
  obtain ⟨hreadN, hwriteN⟩ := s.access_register (a := 0x000008#22) w (by decide) (by decide)
  obtain ⟨hreadLim, hwriteLim⟩ := s.access_register (a := 0x00000C#22) w (by decide) (by decide)
  rw [hwriteN, hwriteLim]
  exact ⟨fun hidle => if_neg (ne_true_of_eq_false hidle), fun hidle => if_neg (ne_true_of_eq_false hidle),
    fun hbusy => ⟨if_pos hbusy, if_pos hbusy⟩, hreadN, hreadLim⟩

theorem offset_ne_of_lt {k : Offset} {lo : Nat} (h : lo ≤ a.toNat) (hk : k.toNat < lo) : a ≠ k := by
  rintro rfl
  omega

theorem regOf_reserved (h : 0x1C ≤ a.toNat) : regOf a = .reserved := by
  simp [regOf, offset_ne_of_lt h]

/-- Past the capacities lie reserved registers and, between them, offsets that no register answers. -/
theorem State.memRead_reserved (s : State) (h : 0x1C ≤ a.toNat) (hle : a.toNat ≤ 0xFC) :
    s.memRead a .four = .ok (0, s) := by
  by_cases hal : a.toNat % 4 = 0
  · rw [(s.access_register 0 hal (by omega)).1, regOf_reserved h]
    rfl
  · exact (State.access_inert (State.target_four_inert (.inl hal)) 0).1

/-- The registers that no write changes (10_state.md R23, R29 to R32). -/
def Reg.readOnly : Reg → Bool
  | .cmd => false
  | .inLen => false
  | .outLimit => false
  | .status => true
  | .outLen => true
  | .inCapR => true
  | .outCapR => true
  | .reserved => true

theorem State.regWrite_readOnly {r : Reg} (h : r.readOnly = true) (s : State) (w : Word) : s.regWrite r w = s := by
  cases r with
  | cmd => cases h
  | inLen => cases h
  | outLimit => cases h
  | status => rfl
  | outLen => rfl
  | inCapR => rfl
  | outCapR => rfl
  | reserved => rfl

theorem regOf_readOnly (h : 0x10 ≤ a.toNat) : (regOf a).readOnly = true := by
  have hcmd := offset_ne_of_lt (k := 0x00#22) h (by decide)
  have hinLen := offset_ne_of_lt (k := 0x08#22) h (by decide)
  have houtLimit := offset_ne_of_lt (k := 0x0C#22) h (by decide)
  rw [regOf, if_neg hcmd, if_neg hinLen, if_neg houtLimit]
  split_ifs <;> rfl

/-- Settles O18, by the register at each offset. -/
theorem readOnlyRegisters : Obligations.ReadOnlyRegisters := by
  intro s
  have hread (a : Offset) (hal : a.toNat % 4 = 0) (hle : a.toNat ≤ 0xFF) :=
    (s.access_register (a := a) 0 hal hle).1
  refine ⟨hread _ (by decide) (by decide), hread _ (by decide) (by decide), hread _ (by decide) (by decide),
    hread _ (by decide) (by decide), hread _ (by decide) (by decide), fun a => s.memRead_reserved,
    fun a w ha => ?_⟩
  by_cases hal : a.toNat % 4 = 0
  · obtain ⟨hle, hro⟩ : a.toNat ≤ 0xFF ∧ (regOf a).readOnly = true := by
      rcases ha with rfl | ⟨hge, hle⟩
      · exact ⟨by decide, rfl⟩
      · exact ⟨Nat.le_trans hle (by decide), regOf_readOnly hge⟩
    rw [(s.access_register w hal hle).2, State.regWrite_readOnly hro]
  · exact (State.access_inert (State.target_four_inert (.inl hal)) w).2

/-- The word that STATUS reads as, for each value of its fields (10_state.md R23). -/
theorem statusFields (err : ErrBits) (done busy : Bool) :
    let w : Word := (err ++ 0#2 ++ BitVec.ofBool done ++ BitVec.ofBool busy).setWidth 32
    w.getLsbD 0 = busy ∧ w.getLsbD 1 = done ∧ w.extractLsb' 2 2 = 0 ∧ w.extractLsb' 4 4 = err ∧
      w.extractLsb' 8 24 = 0 := by
  revert err done busy; decide

/-- Settles O19, by the packing of the fields. -/
theorem statusLayout : Obligations.StatusLayout := fun s => statusFields s.err s.done s.busy

/-! ## Frames -/

/-- Only an access of the OUT_BUF window reaches a byte of OUT_BUF. -/
theorem State.le_of_target_outByte {i : Nat} (h : s.target a n = .outByte i) : 0x200000 ≤ a.toNat := by
  cases n with
  | two => cases h
  | four =>
    rw [State.target] at h
    split at h <;> cases h
  | one =>
    by_contra hlt
    by_cases hin : 0x100000 ≤ a.toNat ∧ a.toNat < 0x100000 + s.inCap
    · rw [State.target_one_inByte hin.1 hin.2] at h
      cases h
    · rw [State.target_one_inert hin (by omega)] at h
      cases h

/-- Settles O26: only a read of a byte of OUT_BUF while BUSY = 1 makes a draw. -/
theorem hostReadsChangeNothing : Obligations.HostReadsChangeNothing := by
  intro s t a n v h
  rcases s.memRead_ok t a n v h with rfl | ⟨hbusy, ⟨i, hi⟩, rfl⟩
  · exact ⟨rfl, fun _ => rfl, fun _ => rfl⟩
  · refine ⟨rfl, fun hidle => absurd hbusy (ne_true_of_eq_false hidle), fun hlt => ?_⟩
    exact absurd (State.le_of_target_outByte hi) (Nat.not_le.mpr hlt)

/-- A host write other than an accepted CMD write stores a length, a buffer byte, or nothing. -/
theorem State.memWrite_stores (h : ¬(a = 0x000000#22 ∧ n = .four ∧ s.busy = false)) (v : Word) :
    ∃ inLen outLimit inBuf outBuf,
      s.memWrite a n v = { s with inLen := inLen, outLimit := outLimit, inBuf := inBuf, outBuf := outBuf } := by
  rcases s.memWrite_cases a n v with heq | ⟨hidle, ha, hn, -⟩ | ⟨-, heq⟩ | ⟨-, heq⟩ | ⟨-, i, -, heq⟩ |
    ⟨-, i, -, heq⟩
  · exact ⟨_, _, _, _, heq⟩
  · exact absurd ⟨ha, hn, hidle⟩ h
  · exact ⟨_, _, _, _, heq⟩
  · exact ⟨_, _, _, _, heq⟩
  · exact ⟨_, _, _, _, heq⟩
  · exact ⟨_, _, _, _, heq⟩

/-- Settles O27, by what such a write stores. -/
theorem hostWritesLeaveStatus : Obligations.HostWritesLeaveStatus := by
  intro s a n v hnot
  obtain ⟨inLen, outLimit, inBuf, outBuf, heq⟩ := State.memWrite_stores hnot v
  rw [heq]
  exact ⟨rfl, rfl, rfl, rfl, rfl, rfl, rfl, rfl, rfl⟩

/-! ## Reads in an invariant state -/

theorem Inv.done_of_busy (h : Inv s) (hbusy : s.busy = true) : s.done = false :=
  Bool.eq_false_of_not_eq_true fun hdone => h.not_both ⟨hbusy, hdone⟩

/-- Settles O40: while BUSY = 1 DONE is 0, so ERR and OUT_LEN are 0. -/
theorem readsWhileBusy : Obligations.ReadsWhileBusy := by
  intro s h hbusy
  have hdone := h.done_of_busy hbusy
  have herr : s.err = 0 := by
    by_contra hne
    exact absurd (h.err_done hne) (ne_true_of_eq_false hdone)
  have hlen : s.outLen = 0 := by
    by_contra hne
    exact absurd (h.outLen_result hne).1 (ne_true_of_eq_false hdone)
  have hstatus : s.statusWord = 0x00000001#32 := by
    rw [State.statusWord, herr, hdone, hbusy]
    decide
  rw [← hstatus]
  refine ⟨(s.access_register 0 (by decide) (by decide)).1, ?_⟩
  rw [← hlen]
  exact (s.access_register 0 (by decide) (by decide)).1

/-- Settles O41: OUT_LEN is at most OUT_CAP, and the invariant has the result's bytes written. -/
theorem resultReadable : Obligations.ResultReadable := by
  intro s i h hidle hi
  obtain ⟨b, hb⟩ := Option.isSome_iff_exists.mp (h.written i hi)
  have htarget := State.target_outBuf_offset h.inCap_le h.outCap_le (Nat.lt_of_lt_of_le hi h.outLen_le)
  refine ⟨b, ?_⟩
  rw [(State.access_outByte htarget 0).1, State.readOut_idle_written hidle hb]

end Sys2Proof.Machine
end

section
/-! The commands: what they commit, which bytes they need, and when they complete (40_commands.md R112 to R118). -/

namespace Sys2Proof.Machine

variable {s t : State} {p : Pend}

/-! ## Unwritten bytes -/

/-- A legal command whose window holds a byte not written stops at the first such byte (93_implementation_defined.md
U6). -/
theorem withInput_unwritten {i : Nat} (hp : s.pend = some p) (hn : p.n.toNat ≤ s.inCap) (hlim : p.lim.toNat ≤ s.outCap)
    (hi : i < p.n.toNat) (hnone : Cells.read s.inBuf i = none)
    (hbefore : ∀ j, j < i → (Cells.read s.inBuf j).isSome = true)
    (k : Pend → List Byte → Host.Outcome State Fault Refusal) : withInput s k = .fault (.unwrittenInput i) := by
  have hread := Cells.readRange_eq_error s.inBuf 0 p.n.toNat i hi (by simpa using hnone) (by simpa using hbefore)
  simp [withInput, hp, State.lengthsOk, hn, hlim, hread]

/-- Settles O25: a host read and a command find no value there. -/
theorem unwrittenBytesFault : Obligations.UnwrittenBytesFault := by
  refine ⟨fun s i hin hout => ⟨fun hi hnone => ?_, fun hi hidle hnone => ?_⟩,
    fun s p i hp hn hlim hi hnone hbefore =>
      ⟨withInput_unwritten hp hn hlim hi hnone hbefore _, withInput_unwritten hp hn hlim hi hnone hbefore _⟩⟩
  · rw [(State.access_inByte (State.target_inBuf_offset hin hi) 0).1, State.readIn, hnone]
  · rw [(State.access_outByte (State.target_outBuf_offset hin hout hi) 0).1, State.readOut,
      if_neg (ne_true_of_eq_false hidle), hnone]

/-! ## What the commands commit -/

/-- Settles O28: the encoder's pass commits its output. -/
theorem compressCommitsEncoding : Obligations.CompressCommitsEncoding :=
  fun _ _ _ hflight hvalid hfit => exec_compress_commits hflight hvalid hfit

/-- Settles O30: the decoder's pass commits its output. -/
theorem decompressCommitsDecoding : Obligations.DecompressCommitsDecoding :=
  fun _ _ _ _ hflight hdecode hfit => exec_decompress_commits hflight hdecode hfit

theorem State.finish_completed (s : State) (c : ErrCode) (len : Nat) (out : Memory) (d : Nat) :
    Completed s (s.finish c len out d) c.bits :=
  ⟨rfl, rfl, rfl, rfl, rfl, s.finish_untouched c len out d⟩

/-- Settles O29: the Unspec completion draws a length within the limit, or fails, and draws `lim` bytes. -/
theorem compressOutOfRange : Obligations.CompressOutOfRange := by
  intro s p src hflight hinvalid
  have hexec : exec .compress s = .next (s.complete p.lim.toNat .unspec) :=
    (execCompress_eq hflight).trans (by rw [hinvalid]; rfl)
  obtain ⟨c, len, bytes, d, heq, hc, hcode, hlen, hbytes⟩ := s.complete_eq_finish p.lim.toNat .unspec
  rw [heq] at hexec
  refine ⟨_, hexec, ?_, fun i hi => ?_, fun i hi => ?_⟩
  · rcases hcode with rfl | rfl
    · exact .inl ⟨s.finish_completed .none len _ d, Nat.le_trans (Nat.mod_le len _) hlen⟩
    · exact .inr ⟨s.finish_completed .bufferTooSmall len _ d, by rw [State.finish_outLen, hc nofun]; rfl⟩
  · rw [State.finish_outBuf, Cells.read_writeList_zero bytes s.outBuf (hbytes ▸ hi)]
    rfl
  · exact Cells.read_writeList_after bytes s.outBuf (by omega)

/-! ## The result as a function of the operands -/

/-- Completions of two states with one result, but for Unspec, agree in ERR, OUT_LEN and the output's bytes. -/
theorem State.complete_agree {r : Result} (hr : r ≠ .unspec) (s s' : State) (lim : Nat) :
    (s.complete lim r).err = (s'.complete lim r).err ∧ (s.complete lim r).outLen = (s'.complete lim r).outLen ∧
      ∀ k, k < (s.complete lim r).outLen.toNat →
        Cells.read (s.complete lim r).outBuf k = Cells.read (s'.complete lim r).outBuf k := by
  cases r with
  | unspec => exact absurd rfl hr
  | err c => exact ⟨rfl, rfl, fun k hk => absurd hk (Nat.not_lt_zero k)⟩
  | ok out =>
    refine ⟨rfl, rfl, fun k hk => ?_⟩
    have hk' : k < out.length := Nat.lt_of_lt_of_le hk (Nat.mod_le out.length _)
    exact (Cells.read_writeList_zero out s.outBuf hk').trans (Cells.read_writeList_zero out s'.outBuf hk').symm

/-- Settles O37: both commands complete with a result that is a function of the window and the limit. -/
theorem resultDependsOnOperands : Obligations.ResultDependsOnOperands := by
  rintro s s' p src hflight hflight' i (⟨rfl, hvalid⟩ | rfl)
  · exact ⟨_, _, exec_compress_valid hflight hvalid, exec_compress_valid hflight' hvalid,
      State.complete_agree (underLimit_ne_unspec _) s s' _⟩
  · exact ⟨_, _, execDecompress_eq hflight, execDecompress_eq hflight',
      State.complete_agree decodePass_ne_unspec s s' _⟩

/-! ## Completion -/

/-- A written window of legal lengths makes a command in flight. -/
theorem InFlight.of_written (hp : s.pend = some p) (hn : p.n.toNat ≤ s.inCap) (hlim : p.lim.toNat ≤ s.outCap)
    (hwritten : ∀ i, i < p.n.toNat → (Cells.read s.inBuf i).isSome = true) : ∃ src, InFlight s p src := by
  refine ⟨List.ofFn fun i : Fin p.n.toNat => (Cells.read s.inBuf i).get (hwritten i i.isLt), hp, hn, hlim,
    List.length_ofFn, fun i hi => ?_⟩
  simp

/-- A legal command completes, if every byte of a window of legal length is written. -/
theorem exec_legal_answers (hp : s.pend = some p)
    (hwritten : ∀ i, i < p.n.toNat → p.n.toNat ≤ s.inCap → (Cells.read s.inBuf i).isSome = true) :
    (∃ t, exec .compress s = .next t) ∧ ∃ t, exec .decompress s = .next t := by
  by_cases hlen : s.inCap < p.n.toNat ∨ s.outCap < p.lim.toNat
  · exact ⟨⟨_, withInput_badLength hp hlen _⟩, ⟨_, withInput_badLength hp hlen _⟩⟩
  · obtain ⟨hn, hlim⟩ : p.n.toNat ≤ s.inCap ∧ p.lim.toNat ≤ s.outCap := by omega
    obtain ⟨src, hflight⟩ := InFlight.of_written hp hn hlim fun i hi => hwritten i hi hn
    exact ⟨⟨_, execCompress_eq hflight⟩, ⟨_, execDecompress_eq hflight⟩⟩

theorem decodeCmd_cases (w : Word) :
    decodeCmd w = .compress ∨ decodeCmd w = .decompress ∨ decodeCmd w = .illegalCmd w := by
  unfold decodeCmd
  split_ifs <;> simp

/-- A command that answers has completed (40_commands.md R112), with a code of 60_exceptions.md R200. -/
theorem exec_command_completes {i : Instr} (hi : i.standsIn .cmdWrite = true) (h : exec i s = .next t) :
    t.busy = false ∧ t.done = true ∧ t.pend = none ∧ t.err.toNat ≤ 4 := by
  obtain ⟨p, r, -, rfl, -⟩ := exec_command_next hi h
  obtain ⟨c, len, bytes, d, heq, -⟩ := s.complete_eq_finish p.lim.toNat r
  rw [heq]
  exact ⟨rfl, rfl, rfl, c.bits_le⟩

/-- A step on the engine's turn that answers has completed the latched command. -/
theorem step_engine_completes (hwork : s.work = .none) (hturn : s.turn = .engine) (hp : s.pend = some p)
    (hstep : step s = .next t) : t.busy = false ∧ t.done = true ∧ t.pend = none ∧ t.err.toNat ≤ 4 := by
  rw [step_engine hwork hturn hp] at hstep
  exact exec_command_completes (decodeCmd_standsIn p.op) hstep

/-- Settles O38: each of the three commands answers. -/
theorem engineTurnCompletes : Obligations.EngineTurnCompletes := by
  intro s p hwork hturn hp hwritten
  obtain ⟨hcompress, hdecompress⟩ := exec_legal_answers (s := s.turnTaken) hp hwritten
  obtain ⟨t, hexec⟩ : ∃ t, exec (decodeCmd p.op) s.turnTaken = .next t := by
    rcases decodeCmd_cases p.op with hop | hop | hop <;> rw [hop]
    · exact hcompress
    · exact hdecompress
    · exact ⟨_, exec_illegalCmd_latched (s := s.turnTaken) hp p.op⟩
  have hstep := (step_engine hwork hturn hp).trans hexec
  exact ⟨t, hstep, step_engine_completes hwork hturn hp hstep⟩

/-- A move of the host leaves the command in flight and uses up its turn. -/
theorem step_host_latched (h : Inv s) (hturn : s.turn = .host) (hp : s.pend = some p) (hstep : step s = .next t) :
    t.pend = some p ∧ t.sched = s.sched.tail := by
  have hbusy : s.busy = true := by rw [h.busy_iff, hp]; rfl
  rw [step_host h.closed hturn] at hstep
  rw [hostMove_busy_frame (by simpa using hbusy) hstep]
  exact ⟨hp, rfl⟩

/-- With a command latched and no reset ahead, the turn is the engine's, or the host's by the order still fixed. -/
theorem turn_latched (hp : s.pend = some p) (hreset : Agent.reset ∉ s.sched) :
    s.turn = .engine ∨ ∃ rest, s.turn = .host ∧ s.sched = .host :: rest := by
  cases hsched : s.sched with
  | nil => exact .inl (by simp [State.turn, hsched, hp])
  | cons agent rest =>
    have hturn : s.turn = agent := by simp [State.turn, hsched]
    cases agent with
    | host => exact .inr ⟨rest, hturn, rfl⟩
    | engine => exact .inl hturn
    | reset => simp [hsched] at hreset

/-- Settles O39, by induction on the length of the order still fixed: a turn of the host leaves the command latched. -/
theorem acceptedCommandCompletes : Obligations.AcceptedCommandCompletes := by
  intro s t p h hp hreset hrun
  induction hn : s.sched.length using Nat.strong_induction_on generalizing s with
  | h n ih =>
    obtain ⟨v, hstep, hrest⟩ := core_run_succ_next hrun
    rcases turn_latched hp hreset with hturn | ⟨rest, hturn, hsched⟩
    · obtain ⟨hbusy, hdone, hpend, -⟩ := step_engine_completes h.closed hturn hp hstep
      exact ⟨0, s, v, Nat.zero_le _, rfl, hp, hturn, hstep, hpend, hbusy, hdone⟩
    · obtain ⟨hpv, hschedv⟩ := step_host_latched h hturn hp hstep
      have hlen : s.sched.length = v.sched.length + 1 := by rw [hschedv, hsched]; rfl
      have hresetv : Agent.reset ∉ v.sched := fun hmem => hreset (List.mem_of_mem_tail (hschedv ▸ hmem))
      rw [hlen] at hrest hn
      obtain ⟨k, u, w, hk, hrunu, hu⟩ :=
        ih v.sched.length (by omega) v (stepKeepsInvariant s v h hstep) hpv hresetv hrest rfl
      exact ⟨k + 1, u, w, by omega, (core_run_next k hstep).trans hrunu, hu⟩

end Sys2Proof.Machine
end

section
/-! The stream tokens as steps of an open decoder: what each leaves unchanged, where none stands, and that a whole
DECOMPRESS is its tokens and its end one by one (42_decompress.md R171 to R176). -/

namespace Sys2Proof.Machine

variable {s : State} {p : Pend} {w : DecoderWork}

/-! ## One token -/

/-- A token runs on the working state of an open decoder, and is refused where none is open. -/
theorem withDecoder_cases (s : State) (k : DecoderWork → Host.Outcome State Fault Refusal) :
    (∃ w, s.work = .decoder w ∧ withDecoder s k = k w) ∨
      ((∀ w, s.work ≠ .decoder w) ∧ withDecoder s k = .refused .tokenContext) := by
  unfold withDecoder
  cases s.work with
  | none => exact .inr ⟨nofun, rfl⟩
  | encoder w => exact .inr ⟨nofun, rfl⟩
  | decoder w => exact .inl ⟨w, rfl, rfl⟩

/-- What a token does with the decoder's working state: in the state it stands in, it goes to the next byte and appends to
the output; the other state refuses it. -/
theorem exec_token {i : Instr} (hi : i.standsIn .cmdWrite = false) (s : State) :
    ∃ k, exec i s = withDecoder s k ∧ ∀ w : DecoderWork,
      (i.standsIn (.stream w.st) = true ∧
        ∃ st tail, k w = .next (s.setWork (.decoder { st := st, i := w.i + 1, out := w.out ++ tail }))) ∨
      (i.standsIn (.stream w.st) = false ∧ k w = .refused .tokenContext) := by
  cases i with
  | compress => cases hi
  | decompress => cases hi
  | illegalCmd word => cases hi
  | marker c =>
    refine ⟨_, rfl, ?_⟩
    rintro ⟨_ | d, index, out⟩
    · exact .inl ⟨rfl, .pendingValue c, [], by rw [List.append_nil]⟩
    · exact .inr ⟨rfl, rfl⟩
  | literal v =>
    refine ⟨_, rfl, ?_⟩
    rintro ⟨_ | d, index, out⟩
    · exact .inl ⟨rfl, .idle, [v.setWidth 8], rfl⟩
    · exact .inr ⟨rfl, rfl⟩
  | repeatValue x v =>
    refine ⟨_, rfl, ?_⟩
    rintro ⟨_ | c, index, out⟩
    · exact .inr ⟨rfl, rfl⟩
    · exact .inl ⟨rfl, .idle, List.replicate c.toNat (v.setWidth 8), rfl⟩

/-- Settles O46: no decoder is open, or it is in the state that refuses the token. -/
theorem tokenOutOfContext : Obligations.TokenOutOfContext := by
  intro i s hcmd hctx
  obtain ⟨k, hexec, hk⟩ := exec_token hcmd s
  rw [hexec]
  rcases withDecoder_cases s k with ⟨w, hwork, heq⟩ | ⟨-, heq⟩
  · rcases hk w with ⟨hst, -⟩ | ⟨-, hrefused⟩
    · exact absurd hst (ne_true_of_eq_false (hctx w hwork))
    · exact heq.trans hrefused
  · exact heq

theorem standsIn_cmdWrite_of_stream {i : Instr} {d : DState} (h : i.standsIn (.stream d) = true) :
    i.standsIn .cmdWrite = false := by
  cases i with
  | compress => cases h
  | decompress => cases h
  | illegalCmd w => cases h
  | marker c => rfl
  | literal v => rfl
  | repeatValue x v => rfl

/-- Settles O45: a token that answers stood in the state of an open decoder. -/
theorem tokenFrame : Obligations.TokenFrame := by
  intro i d s t hi hnext
  obtain ⟨k, hexec, hk⟩ := exec_token (standsIn_cmdWrite_of_stream hi) s
  rw [hexec] at hnext
  rcases withDecoder_cases s k with ⟨w, hwork, heq⟩ | ⟨-, heq⟩
  · rcases hk w with ⟨-, st, tail, hset⟩ | ⟨-, hrefused⟩
    · obtain rfl := Host.Outcome.next.inj (hnext.symm.trans (heq.trans hset))
      exact ⟨rfl, w, _, hwork, rfl, rfl, tail, rfl⟩
    · exact absurd (hnext.symm.trans (heq.trans hrefused)) nofun
  · exact absurd (hnext.symm.trans heq) nofun

/-! ## The end of the stream -/

/-- With a decoder open past the last byte, the step completes with the decoder's result. -/
theorem step_decoder_end (hwork : s.work = .decoder w) (hp : s.pend = some p) (hi : p.n.toNat ≤ w.i) :
    step s = .next (s.complete p.lim.toNat (w.result p.lim.toNat)) := by
  simp [step, machineMove, hwork, engineStep, engineFetch, hp, State.nextInput, Nat.not_lt.mpr hi, finishPass,
    finishDecode, withDecoder]

/-- Settles O47, by the decoder's result in each state. -/
theorem endOfStream : Obligations.EndOfStream := by
  intro s p w hwork hp hi
  have hstep := step_decoder_end hwork hp hi
  refine ⟨fun c hst => ⟨_, hstep, ?_⟩, fun hst hlong => ⟨_, hstep, ?_⟩, fun hst hfit => ⟨_, hstep, ?_⟩⟩
  · rw [DecoderWork.result, hst]
    exact s.raiseError_failed .malformedEncoding
  · rw [DecoderWork.result, hst, (underLimit_eq_err_iff w.out).mpr ⟨rfl, hlong⟩]
    exact s.raiseError_failed .bufferTooSmall
  · rw [DecoderWork.result, hst, underLimit_of_le hfit]
    exact s.complete_ok_committed _ (Nat.lt_of_le_of_lt hfit p.lim.isLt)

/-! ## A whole stream -/

/-- A completion clears the working state, whatever it was. -/
theorem State.complete_setWork (s : State) (w : Work) (lim : Nat) (r : Result) :
    (s.setWork w).complete lim r = s.complete lim r := by
  cases r <;> rfl

/-- The token of a byte is what the decoder's pass does with the byte. -/
theorem exec_decodeToken (hwork : s.work = .decoder w) (b : Byte) :
    exec (decodeToken w.st b) s = .next (s.setWork (.decoder (w.push b))) := by
  rw [← decodeByte_eq b s w hwork, decodeByte, withDecoder_open hwork]
  cases w.st with
  | idle => cases hb : highBit b <;> simp [decodeToken, hb, exec]
  | pendingValue c => rfl

@[simp] theorem DecoderWork.push_i (w : DecoderWork) (b : Byte) : (w.push b).i = w.i + 1 := by
  obtain ⟨st, index, out⟩ := w
  cases st with
  | idle => cases hb : highBit b <;> simp [DecoderWork.push, hb]
  | pendingValue c => rfl

theorem step_decoder_byte {b : Byte} (hp : s.pend = some p) (hi : w.i < p.n.toNat)
    (hread : Cells.read s.inBuf w.i = some b) :
    step (s.setWork (.decoder w)) = .next (s.setWork (.decoder (w.push b))) := by
  rw [step_decoder_token (s := s.setWork (.decoder w)) rfl hp hi hread, exec_decodeToken rfl]
  rfl

/-- From a decoder open at any byte, the tokens of the rest of the window and the end of the stream complete with the
result of the pass over the rest. -/
theorem run_decoder_rest (rest : List Byte) (hp : s.pend = some p) (hlen : w.i + rest.length = p.n.toNat)
    (hread : ∀ k (hk : k < rest.length), Cells.read s.inBuf (w.i + k) = some rest[k]) :
    core.run (rest.length + 1) (s.setWork (.decoder w)) =
      .next (s.complete p.lim.toNat ((rest.foldl DecoderWork.push w).result p.lim.toNat)) := by
  induction rest generalizing w with
  | nil =>
    have hend := step_decoder_end (s := s.setWork (.decoder w)) rfl hp (Nat.le_of_eq hlen.symm)
    rw [List.length_nil, core_run_next 0 hend, core_run_zero, State.complete_setWork]
    rfl
  | cons b rest ih =>
    rw [List.length_cons] at hlen
    have hstep := step_decoder_byte (w := w) hp (by omega) (hread 0 (Nat.succ_pos _))
    rw [List.length_cons, core_run_next _ hstep, List.getElem_cons_zero]
    refine ih (by rw [DecoderWork.push_i]; omega) fun k hk => ?_
    rw [DecoderWork.push_i, Nat.add_right_comm, Nat.add_assoc]
    exact hread (k + 1) (Nat.succ_lt_succ hk)

/-- Settles O33: the pass over the window from its first byte. -/
theorem decompressIsItsTokens : Obligations.DecompressIsItsTokens := by
  intro s p src hflight
  have hrun := run_decoder_rest (w := DecoderWork.start) src hflight.latched
    ((Nat.zero_add _).trans hflight.length) fun k hk => by
      rw [show DecoderWork.start.i + k = k from Nat.zero_add k]
      exact hflight.window k hk
  exact hrun.trans (execDecompress_eq hflight).symm

end Sys2Proof.Machine
end

section
/-! The chunks of a run: their lengths, and that no other split emits fewer bytes (41_compress.md R142); decoding by
groups (30_encoding.md R86). -/

namespace Sys2Proof.Machine

theorem sum_chunks (v : Byte) (l : Nat) : ((chunks v l).map Prod.snd).sum = l := by
  rw [← length_expandRuns, expandRuns_chunks, List.length_replicate]

/-- The last chunk is the only one that may be shorter than 127. -/
theorem chunks_full_before_last {v : Byte} {l j : Nat} {c : Byte × Nat} (hj : j + 1 < (chunks v l).length)
    (hc : (chunks v l)[j]? = some c) : c.2 = 127 := by
  have hfull : j < (List.replicate (l / maxChunk) (v, maxChunk)).length := by
    rw [chunks, List.length_append] at hj
    split at hj
    · rw [List.length_singleton] at hj
      omega
    · rw [List.length_nil] at hj
      omega
  rw [chunks, List.getElem?_append_left hfull] at hc
  rw [List.eq_of_mem_replicate (List.mem_of_getElem? hc)]

/-- Settles O49: the chunks stand for the bytes of the run, so their lengths add up to it. -/
theorem chunkSplit : Obligations.ChunkSplit :=
  fun v l _ => ⟨fun _ => of_mem_chunks, sum_chunks v l, fun _ _ => chunks_full_before_last⟩

/-- One more chunk of length `c` emits at least what it adds to the cost (41_compress.md R147). -/
theorem cost_add_le {c : Nat} (h1 : 1 ≤ c) (h127 : c ≤ 127) (v : Byte) (l : Nat) :
    cost (c + l) ≤ (emit v c).length + cost l := by
  rw [length_emit]
  unfold cost maxChunk
  split_ifs <;> omega

theorem cost_sum_le (v : Byte) {cs : List Nat} (h : ∀ c ∈ cs, 1 ≤ c ∧ c ≤ 127) :
    cost cs.sum ≤ (cs.flatMap fun c => emit v c).length := by
  induction cs with
  | nil => exact Nat.le_refl 0
  | cons c cs ih =>
    rw [List.forall_mem_cons] at h
    obtain ⟨⟨h1, h127⟩, hcs⟩ := h
    rw [List.sum_cons, List.flatMap_cons, List.length_append]
    calc cost (c + cs.sum)
      _ ≤ (emit v c).length + cost cs.sum := cost_add_le h1 h127 v cs.sum
      _ ≤ (emit v c).length + (cs.flatMap fun c => emit v c).length := Nat.add_le_add_left (ih hcs) _

/-- Settles O50: the greedy split emits the cost of the run, and a split emits at least that, chunk by chunk. -/
theorem greedySplitIsShortest : Obligations.GreedySplitIsShortest := by
  rintro v l cs hcs rfl
  exact (length_emitRun v cs.sum).trans_le (cost_sum_le v hcs)

/-- Settles O55, by induction along the groups of the stream. -/
theorem decodingIsByGroups : Obligations.DecodingIsByGroups :=
  fun src => ⟨rleDecode_eq_map_groups src, fun _ => flatMap_bytes_of_groups⟩

end Sys2Proof.Machine
end
